-- ==== Sys2Proof/Word.lean ====
section
/-! DEFINITION. The word types of the WS2812 protocol encoder (spec/00_scope.md rules R8 and R10).
Every value is unsigned; no value of this block is ever sign-extended (rule R10). -/

namespace Sys2Proof

/-- A payload byte (rule R29). -/
abbrev Byte := BitVec 8

/-- A configuration register, `CFG_W = 32` bits (rules R8 and R17). -/
abbrev CfgWord := BitVec 32

/-- A `W` or `free` command field, `CNT_W = 16` bits (rules R8 and R47). -/
abbrev CountWord := BitVec 16

/-- A command word (rule R45). -/
abbrev CmdWord := BitVec 64

/-- A packed pulse symbol (rule R54). -/
abbrev SymWord := BitVec 32

end Sys2Proof
end

