-- ==== Sys2Proof/Config.lean ====
section
/-! DEFINITION. The fixed parameters of spec/00_scope.md rule R8, the values of its OPEN parameters in this machine
(constants without a body, so no proof can see them), and the free values of the model. -/

namespace Sys2Proof.Config

/-- `PLEN`, the payload length in bytes (R8). -/
def plen : Nat := 3

/-- `MIN_CHUNK`, the free slots needed for any output (R8). -/
def minChunk : Nat := 8

/-- `SYMS_PER_DATA_CALL` (R8). -/
def symsPerDataCall : Nat := 8

/-- `DUR_W`, the width of a symbol duration (R8). -/
def durWidth : Nat := 15

/-- The largest duration that fits in `DUR_W` bits, 32767 (R68). -/
def durMax : Nat := 2 ^ durWidth - 1

/-- How far this machine's `CAP` lies above its least value 8: R8 leaves it OPEN (assumption log 7). -/
opaque capExtra : Nat

/-- `CAP`, the output slot capacity of one PULL response: OPEN, at least 8 (R8). -/
def cap : Nat := capExtra + 8

/-- How far this machine's `RING_DEPTH` lies above 8: R8 leaves it OPEN (assumption log 7). -/
opaque ringDepthExtra : Nat

/-- `RING_DEPTH`: OPEN, at least 8 (R8). -/
def ringDepth : Nat := ringDepthExtra + 8

/-- `QUEUE_DEPTH`: OPEN, read by no rule (R8, decision D17). -/
opaque queueDepth : Nat

/-- `DRAIN_TIMEOUT` in ticks, `none` for an unbounded wait: OPEN (R8, R93; assumption log 16). -/
opaque drainTimeout : Option Nat

/-- The level of the power-enable line at reset: any value (R112, 93_implementation_defined.md; assumption log 6). The
argument is `State.draws`, so that every block reset has a value of its own. -/
opaque powerAtReset : Nat → Bool

/-- Free value: the level of the power-enable line after boot step 1 has reset its pin "to known state" (R113): the source does
not give that state (91_not_in_source.md). The argument is `State.draws` (assumption log 31). -/
opaque powerAfterPinReset : Nat → Bool

/-- Free value: the number of ticks for which PG goes on idling once a symbol is there after an underrun (R85).
The argument is `State.draws`, so that every underrun has a value of its own (assumption log 13). -/
opaque gapTicks : Nat → Nat

/-- Free value: whether a symbol cut off by disabling the channel goes on when the channel is enabled again.
The spec does not say. The argument is `State.draws` (assumption log 15). -/
opaque cutSymbolResumes : Nat → Bool

end Sys2Proof.Config
end

