-- ==== Sys2Proof/Syntax.lean ====
section
/-! DEFINITION. The commands of ENC: one constructor per row of spec/opcode_table.json (rules R46 to R49). -/

namespace Sys2Proof

/-- A command of ENC's host interface with its operand fields as they stand in the word (rule R52). -/
inductive Instr where
  /-- `PULL W=<w>, FREE=<free>, DONE=<doneIn>` (R47, R74). -/
  | pull (w free : CountWord) (doneIn : Bool)
  /-- `LOADC R=<r>, G=<g>, B=<b>`, in the public order red, green, blue (R48, R72). -/
  | loadc (r g b : Byte)
  /-- `CFGW <idx>, <value>` (R49, R71). -/
  | cfgw (idx : BitVec 4) (value : CfgWord)
deriving DecidableEq, Repr

end Sys2Proof
end

