-- ==== Sys2Proof/WellFormed.lean ====
section
/-! DEFINITION. Which commands are encodable as legal words: all but a `CFGW` of a reserved register (rules R50 and R51). -/

namespace Sys2Proof

/-- A command is well formed when rule R51's decoder can yield it: the one operand check is that a `CFGW` names one of the
registers 0 to 5 (R49: "6 to 15 are reserved"). Every value of every other field is legal. -/
def Instr.wellFormed : Instr → Bool
  | .pull _ _ _ => true
  | .loadc _ _ _ => true
  | .cfgw idx _ => decide (idx.toNat ≤ 5)

end Sys2Proof
end

