-- ==== Sys2Proof/Decode.lean ====
section
/-! DEFINITION. The decoder of command words, total on all 64-bit words (spec/30_encoding.md rules R45 to R52), and the
encoder, written from the same bit tables. A command is one 64-bit word on a port; it is never stored as bytes, and the spec
gives no byte order for it (rule R34, 91_not_in_source.md), so the decoder reads the word itself. -/

namespace Sys2Proof

/-- Why a word is no command (R58). ENC reports all three as the one fault code `ILLEGAL_CMD`. -/
inductive IllegalWord where
  /-- `op` is 0x0 or 0x4 to 0xF. -/
  | reservedOp
  /-- A bit that R47 to R49 mark "reserved, must be 0" is set. -/
  | reservedBits
  /-- A `CFGW` whose register index is 6 to 15. -/
  | reservedIndex
deriving DecidableEq, Repr

/-- What a word decodes to: a command, or a rejection by name. -/
inductive Decoded where
  | cmd (i : Instr)
  | illegal (why : IllegalWord)
deriving DecidableEq, Repr

/-- The field of `n` bits whose lowest bit is bit `lo` of the command word (`cmd[lo+n-1:lo]`, R10). -/
def field (cmd : CmdWord) (lo n : Nat) : BitVec n := cmd.extractLsb' lo n

/-- `op = cmd[63:60]` (R45). -/
def opField (cmd : CmdWord) : BitVec 4 := field cmd 60 4

/-- `PULL`'s row of R51. -/
def decodePull (cmd : CmdWord) : Decoded :=
  if field cmd 33 27 ≠ 0 then .illegal .reservedBits
  else .cmd (.pull (field cmd 16 16) (field cmd 0 16) (cmd.getLsbD 32))

/-- `LOADC`'s row of R51. -/
def decodeLoadc (cmd : CmdWord) : Decoded :=
  if field cmd 24 36 ≠ 0 then .illegal .reservedBits
  else .cmd (.loadc (field cmd 16 8) (field cmd 8 8) (field cmd 0 8))

/-- `CFGW`'s row of R51. -/
def decodeCfgw (cmd : CmdWord) : Decoded :=
  if field cmd 36 24 ≠ 0 then .illegal .reservedBits
  else if (field cmd 32 4).toNat > 5 then .illegal .reservedIndex
  else .cmd (.cfgw (field cmd 32 4) (field cmd 0 32))

/-- R51: the decoder, a total function from any 64-bit word to a command or a rejection. -/
def decode (cmd : CmdWord) : Decoded :=
  if opField cmd = 1 then decodePull cmd
  else if opField cmd = 2 then decodeLoadc cmd
  else if opField cmd = 3 then decodeCfgw cmd
  else .illegal .reservedOp

/-- The word of a command, field by field from the highest bit (R47, R48, R49). It is defined for an ill-formed `CFGW` too:
that word is what ENC would be given. -/
def encode : Instr → CmdWord
  | .pull w free doneIn => 0x1#4 ++ 0#27 ++ BitVec.ofBool doneIn ++ w ++ free
  | .loadc r g b => 0x2#4 ++ 0#36 ++ r ++ g ++ b
  | .cfgw idx value => 0x3#4 ++ 0#24 ++ idx ++ value

/-- The `match` word of a command's row in spec/opcode_table.json. -/
def tableMatch : Instr → CmdWord
  | .pull _ _ _ => 0x1000000000000000#64
  | .loadc _ _ _ => 0x2000000000000000#64
  | .cfgw _ _ => 0x3000000000000000#64

/-- The `mask` word of a command's row in spec/opcode_table.json. -/
def tableMask : Instr → CmdWord
  | .pull _ _ _ => 0xFFFFFFFE00000000#64
  | .loadc _ _ _ => 0xFFFFFFFFFF000000#64
  | .cfgw _ _ => 0xFFFFFFF000000000#64

/-- A word of at most 64 bits as spec/opcode_table.json numbers it: the bits at and above `nbits` are 0. -/
def tableWord (nbits w : Nat) : CmdWord := BitVec.ofNat 64 (w % 2 ^ nbits)

/-- The instruction the decoder reads from a table word. -/
def decodeTableWord (nbits w : Nat) : Option Instr :=
  match decode (tableWord nbits w) with
  | .cmd i => some i
  | .illegal _ => none

end Sys2Proof
end

