-- ==== Sys2Proof/Machine/State.lean ====
section
/-! DEFINITION. The state of the machine: the encoder block ENC (spec/10_state.md rules R15 to R24), the two agents around it,
HOST (R27) and the pulse generator PG (R28), the power-enable line (R98), the open parameters (R8), and the model's own
fields. INVENTORY.md lists every field with its rule and its reset value. -/

namespace Sys2Proof.Machine

/-! ### ENC -/

/-- The names of the six configuration registers, indices 0 to 5 (R17). -/
inductive CfgReg where
  | tickHz | t0hNs | t0lNs | t1hNs | t1lNs | rstNs
deriving DecidableEq, Repr

/-- The configuration registers `CFG[0..5]` (R17). -/
structure Cfg where
  /-- Register 0, `TICK_HZ`, the tick frequency in Hz. -/
  tickHz : CfgWord
  /-- Register 1, `T0H_NS`, the high time of ZERO in ns. -/
  t0hNs : CfgWord
  /-- Register 2, `T0L_NS`, the low time of ZERO in ns. -/
  t0lNs : CfgWord
  /-- Register 3, `T1H_NS`, the high time of ONE in ns. -/
  t1hNs : CfgWord
  /-- Register 4, `T1L_NS`, the low time of ONE in ns. -/
  t1lNs : CfgWord
  /-- Register 5, `RST_NS`, the total low time of RESET in ns. -/
  rstNs : CfgWord
deriving DecidableEq, Repr

/-- `PAYLOAD[0..2]` in transmission order, with the one written mark for all three (R21). -/
structure Payload where
  /-- `PAYLOAD[0]`, green. -/
  green : Byte
  /-- `PAYLOAD[1]`, red. -/
  red : Byte
  /-- `PAYLOAD[2]`, blue. -/
  blue : Byte
  /-- The written mark; while it is clear the register holds no value and no command reads it. -/
  written : Bool
deriving DecidableEq, Repr

/-- A pulse symbol (R22). Levels are bits. A duration is a count of ticks; that it fits in `DUR_W = 15` bits is
`Symbol.fits`, which every symbol ENC hands out meets (assumption log 17). -/
structure Symbol where
  lvl0 : Bool
  dur0 : Nat
  lvl1 : Bool
  dur1 : Nat
deriving DecidableEq, Repr

/-- The three entries of the symbol ROM (R23); index 3 is never formed (R57). -/
inductive RomIndex where
  | zero | one | reset
deriving DecidableEq, Repr

/-- ENC's fault codes 1 to 7 (R99). Code 0, `NONE`, is `Option.none`. -/
inductive EncFault where
  | illegalCmd | cfgLocked | cfgInvalid | noPayload | afterDone | cursor | capacity
deriving DecidableEq, Repr

/-- A response (R25, R56): `status` is `none` for OK and the fault code otherwise. -/
structure Response where
  status : Option EncFault
  count : Nat
  doneOut : Bool
  /-- The output slots `O[0..count-1]` in emission order. -/
  syms : List Symbol
deriving DecidableEq, Repr

/-! ### HOST and PG -/

/-- HOST's contract violation codes (R100). -/
inductive HostFault where
  | overlap | order | afterDone | freeOverstated
deriving DecidableEq, Repr

/-- How far the driver's boot has come (R113; assumption log 21). -/
inductive Boot where
  /-- Nothing done yet. -/
  | off
  /-- Step 1 done: the GPIO line is acquired. -/
  | gpio
  /-- Step 2 done: the channel is configured; HOST runs. -/
  | ready
  /-- Step 1 or 2 failed, a fatal construction failure: there is no HOST to run (R101). -/
  | failed
deriving DecidableEq, Repr

/-- What `SET_COLOR` returned (R91). -/
inductive Ret where
  | ok | fail
deriving DecidableEq, Repr

/-- What PG is doing (R84, R85, R89). -/
inductive Play where
  /-- Free to begin the head of `RING` in the very next tick: nothing has been played since the channel was enabled, or a symbol
  has just ended with the next one still in `RING`. -/
  | idle
  /-- `sym` has begun, and `elapsed` of its ticks are over. -/
  | playing (sym : Symbol) (elapsed : Nat)
  /-- The last symbol ended with `RING` empty; `gapped` says that at least one low tick has passed since. -/
  | starved (gapped : Bool)
  /-- A symbol has come after an underrun; PG idles for `left` more ticks before it plays it. -/
  | gap (left : Nat)
deriving DecidableEq, Repr

/-- The open parameters of R8, fixed for a machine: no step changes them. -/
structure Params where
  /-- `CAP`, at least 8. -/
  cap : Nat
  /-- `RING_DEPTH`; at least 8 for progress. -/
  ringDepth : Nat
  /-- `QUEUE_DEPTH`, used by no rule (D17). -/
  queueDepth : Nat
  /-- `DRAIN_TIMEOUT` in ticks; `none` is the unbounded wait. -/
  drainTimeout : Option Nat
deriving DecidableEq, Repr

/-- What happens next, in the order of `State.inbox`: which agent moves, with the liberties it takes (R95) and the draws of
the environment (R96). Assumption log 1. -/
inductive Event where
  /-- A command word is put straight on ENC's port (R102's `Step(cmd)`), without HOST (assumption log 12). -/
  | port (cmd : CmdWord)
  /-- HOST issues a command word under its duties (R94). -/
  | issue (cmd : CmdWord)
  /-- HOST runs the pseudo-instruction `CFG_TIMING` (R61); that nothing falls between its six commands, and what becomes of those
  that are left when one faults, is the model's choice (assumption logs 30 and 34). -/
  | cfgTiming (hz t0h t0l t1h t1l rst : CfgWord)
  /-- HOST starts `SET_COLOR r, g, b`; the draw is the answer of `SubmitFails()` (R91). -/
  | setColor (r g b : Byte) (submitFails : Bool)
  /-- HOST goes once round `SET_COLOR`'s loop and passes `free` (R91). -/
  | pull (free : CountWord)
  /-- HOST looks at its wait for drain; the draw is the answer of `DrainFails()` (R91, R93). A failing one may strike while the
  loop still runs (assumption log 32). -/
  | drain (drainFails : Bool)
  /-- Boot step 1 (R113) and whether the platform grants it. -/
  | acquireGpio (ok : Bool)
  /-- Boot step 2 (R113) and whether the platform grants it. -/
  | configureChannel (ok : Bool)
  /-- `power_on()` or `power_off()`, and whether the GPIO write succeeds (R98). -/
  | power (on ok : Bool)
  /-- One tick of PG passes (R83). -/
  | tick
  /-- Block reset (R112). -/
  | blockReset
deriving DecidableEq, Repr

/-- The whole machine. -/
structure State where
  /-- ENC: `CFG[0..5]` (R17). -/
  cfg : Cfg
  /-- ENC: `CFG_LOCK` (R20). -/
  cfgLock : Bool
  /-- ENC: `PAYLOAD` and its written mark (R21). -/
  payload : Payload
  /-- ENC: `FAULT` (R24). -/
  fault : Option EncFault
  /-- ENC: `FAULT_CMD` (R24). -/
  faultCmd : CmdWord
  /-- The model's own: the response on ENC's port, until the next command (R25; assumption log 2). -/
  rsp : Option Response
  /-- HOST: `ACTIVE` (R27). -/
  active : Bool
  /-- The model's own: HOST's cursor has a value, a `LOADC` of HOST's having succeeded since reset (assumption log 11). -/
  cursorSet : Bool
  /-- HOST: the cursor position `W` (R18). -/
  w : Nat
  /-- HOST: the completion flag `done` (R19). -/
  done : Bool
  /-- HOST: `HFAULT` (R27). -/
  hfault : Option HostFault
  /-- HOST: how far the boot has come (R113). -/
  boot : Boot
  /-- The model's own: ticks HOST has waited for the drain (R93). -/
  waited : Nat
  /-- The model's own: what the last `SET_COLOR` returned, `none` while it runs (R91). -/
  ret : Option Ret
  /-- PG: `EN` (R28). -/
  en : Bool
  /-- PG: `RING`, its head first (R28). -/
  ring : List Symbol
  /-- PG: `LINE`, the level of the data line in the last tick (R28). -/
  line : Bool
  /-- PG: what it is doing (R85, R89). -/
  play : Play
  /-- The power-enable line (R98). -/
  power : Bool
  /-- The open parameters (R8). -/
  par : Params
  /-- The model's own: how many free values have been drawn (assumption log 13). -/
  draws : Nat
  /-- The model's own: the events to come, the next one first (assumption log 1). -/
  inbox : List Event
deriving DecidableEq, Repr

/-- Why the machine stops. Each is a stuck state of the spec, or a choice of event that the spec gives no step for. -/
inductive Fault where
  /-- A command reaches ENC while `FAULT ≠ NONE`: "no step" (R102, R105). Raised by every command, and by HOST's steps.
  Safe: it is the spec's own stuck state. -/
  | encStuck
  /-- HOST is asked to act after a contract violation: the run has ended (R94). Raised by HOST's steps. Safe. -/
  | hostStuck
  /-- HOST is asked to act and there is no HOST: the boot is not finished, or has failed (R101, R113). Safe. -/
  | noHost
  /-- A boot step out of R113's order. Raised by the two boot events. Safe. -/
  | bootOrder
  /-- A GPIO write failed, which "fails fatally" (R98). Raised by the power event. Safe. -/
  | gpioFailed
deriving DecidableEq, Repr

/-- Why an instruction has no meaning. -/
inductive Refusal where
  /-- Raised by an arm of `exec` that is not modelled yet; there is none in this model. Safe. -/
  | notModelled (mnemonic : String)
deriving DecidableEq, Repr

/-- The reset values of the configuration registers (R17, R112). -/
def Cfg.reset : Cfg :=
  { tickHz := 20000000, t0hNs := 350, t0lNs := 700, t1hNs := 800, t1lNs := 600, rstNs := 50000 }

/-- `PAYLOAD` after block reset: no value, the written mark clear (R21, R112). The bytes behind the clear mark are zeros
(DESIGN CHOICE, assumption log 3). -/
def Payload.reset : Payload := { green := 0, red := 0, blue := 0, written := false }

/-- The open parameters of this machine (assumption log 7). -/
def Params.reset : Params :=
  { cap := Config.cap, ringDepth := Config.ringDepth, queueDepth := Config.queueDepth, drainTimeout := Config.drainTimeout }

/-- The machine right after block reset, which is the model's initial state (R112). -/
def State.reset : State :=
  { cfg := Cfg.reset, cfgLock := false, payload := Payload.reset, fault := none, faultCmd := 0, rsp := none,
    active := false, cursorSet := false, w := 0, done := false, hfault := none, boot := .off, waited := 0, ret := none,
    en := false, ring := [], line := false, play := .idle, power := Config.powerAtReset 0, par := Params.reset, draws := 1,
    inbox := [] }

end Sys2Proof.Machine
end

