-- ==== Sys2Proof/Machine/Ops.lean ====
section
/-! DEFINITION. The named operations over ENC's registers and spaces (spec/20_memory.md), the response of a command, raising
a fault (spec/60_exceptions.md rule R104), the part of the command wrapper that every command shares (R102), and block reset,
the only way out of a fault (R105, R112). -/

namespace Sys2Proof.Machine

/-! ### The configuration space `CFG` -/

/-- The register of an index; 6 to 15 are reserved (R17). -/
def CfgReg.ofIndex (idx : BitVec 4) : Option CfgReg :=
  match idx.toNat with
  | 0 => some .tickHz
  | 1 => some .t0hNs
  | 2 => some .t0lNs
  | 3 => some .t1hNs
  | 4 => some .t1lNs
  | 5 => some .rstNs
  | _ => none

/-- The index of a register (R17). -/
def CfgReg.index : CfgReg → BitVec 4
  | .tickHz => 0
  | .t0hNs => 1
  | .t0lNs => 2
  | .t1hNs => 3
  | .t1lNs => 4
  | .rstNs => 5

/-- `CFG[i]` (R11). -/
def Cfg.get (c : Cfg) : CfgReg → CfgWord
  | .tickHz => c.tickHz
  | .t0hNs => c.t0hNs
  | .t0lNs => c.t0lNs
  | .t1hNs => c.t1hNs
  | .t1lNs => c.t1lNs
  | .rstNs => c.rstNs

/-- `CFG[i] <- v` (R11): a write stores any 32-bit value (R17). -/
def Cfg.set (c : Cfg) (r : CfgReg) (v : CfgWord) : Cfg :=
  match r with
  | .tickHz => { c with tickHz := v }
  | .t0hNs => { c with t0hNs := v }
  | .t0lNs => { c with t0lNs := v }
  | .t1hNs => { c with t1hNs := v }
  | .t1lNs => { c with t1lNs := v }
  | .rstNs => { c with rstNs := v }

/-! ### The payload space `P` and the output slots `O` -/

/-- `PAYLOAD[i]` for `i < PLEN`, and nothing beyond (R29, R32). -/
def Payload.byte? (p : Payload) : Nat → Option Byte
  | 0 => some p.green
  | 1 => some p.red
  | 2 => some p.blue
  | _ => none

/-- `MemRead(P:i, 1)`: defined only while the written mark is set and `i < PLEN` (R30). It changes nothing (R37). -/
def memReadP (p : Payload) (i : Nat) : Option Byte :=
  if p.written then p.byte? i else none

/-- The payload a `LOADC` leaves, green first, then red, then blue, marked written (R72). -/
def Payload.load (r g b : Byte) : Payload := { green := g, red := r, blue := b, written := true }

/-- `MemWrite(O:i, 1, s)` for the next slot in increasing order (R31): the slots written so far, then `s`. -/
def memWriteO (slots : List Symbol) (s : Symbol) : List Symbol := slots ++ [s]

/-! ### Responses and faults -/

/-- The response of a command that returns `(count, done_out)` with these output slots (R25). -/
def Response.ok (syms : List Symbol) (doneOut : Bool) : Response :=
  { status := none, count := syms.length, doneOut := doneOut, syms := syms }

/-- The response of a faulting command (R104). -/
def Response.faulted (c : EncFault) : Response := { status := some c, count := 0, doneOut := false, syms := [] }

/-- `return (count, done_out)`: the response goes onto the port. -/
def respond (syms : List Symbol) (doneOut : Bool) (s : State) : State := { s with rsp := some (Response.ok syms doneOut) }

/-- `raise Fault(code)` (R104): `FAULT` and `FAULT_CMD` are written, the fault response is returned and nothing else is
written: no stack, no mode, no vector. -/
def raiseFault (c : EncFault) (cmd : CmdWord) (s : State) : State :=
  { s with fault := some c, faultCmd := cmd, rsp := some (Response.faulted c) }

/-- How every command ends: stuck when `FAULT ≠ NONE` (R102's first line, R105), else by the `raise` or the `return` its rule
comes to. `result` is that rule's outcome on the same state. -/
def command (cmd : CmdWord) (s : State) (result : Except EncFault State) : Host.Outcome State Fault Refusal :=
  match s.fault with
  | some _ => .fault .encStuck
  | none =>
    match result with
    | .error c => .next (raiseFault c cmd s)
    | .ok t => .next t

/-- Block reset in mid run (R112): the initial state again. The open parameters and the events to come are not the machine's
to reset, and the level of the power-enable line is any value (assumption log 6). -/
def blockReset (s : State) : State :=
  { State.reset with par := s.par, inbox := s.inbox, power := Config.powerAtReset s.draws, draws := s.draws + 1 }

end Sys2Proof.Machine
end

