-- ==== Sys2Proof/Machine/Operands.lean ====
section
/-! DEFINITION. Operand assembly (spec/30_encoding.md rules R52 and R53): every operand is an unsigned field, and `PULL`
derives its byte index and its ROM selectors. -/

namespace Sys2Proof.Machine

/-- `W` and `free` are zero-extended 16-bit naturals (R52). -/
abbrev zext (v : CountWord) : Nat := v.toNat

/-- `byte_index = W div 8` (R53). -/
abbrev byteIndex (w : Nat) : Nat := w / 8

/-- `sel_k = byte[7-k]` for output slot `k` (R33, R53): slot 0 carries the most significant bit. -/
def selBit (byte : Byte) (k : Nat) : Bool := byte.getLsbD (7 - k)

/-- A payload bit selects ROM index 0 (`ZERO`) or 1 (`ONE`) (R53). -/
def RomIndex.ofBit : Bool → RomIndex
  | false => .zero
  | true => .one

/-- The 2-bit ROM selector: index 3 is reserved and absent (R57). -/
def RomIndex.ofBits (k : BitVec 2) : Option RomIndex :=
  match k.toNat with
  | 0 => some .zero
  | 1 => some .one
  | 2 => some .reset
  | _ => none

end Sys2Proof.Machine
end

