-- ==== Sys2Proof/Machine/Flags.lean ====
section
/-! DEFINITION. The block's only flag, the completion flag (spec/10_state.md rule R19), as each arm of `PULL` returns it, and
the status code of a response. There are no condition codes. -/

namespace Sys2Proof.Machine

/-- The three arms of `PULL` (R14). -/
inductive Arm where
  | stall | data | terminate
deriving DecidableEq, Repr

/-- `done_out` of each arm: the stall and data arms leave the flag untouched, only the terminate arm sets it (R19, R75 to
R77). -/
def doneOut (a : Arm) (doneIn : Bool) : Bool :=
  match a with
  | .stall => doneIn
  | .data => doneIn
  | .terminate => true

/-- The number of ENC's fault code (R99). -/
def EncFault.code : EncFault → BitVec 8
  | .illegalCmd => 1
  | .cfgLocked => 2
  | .cfgInvalid => 3
  | .noPayload => 4
  | .afterDone => 5
  | .cursor => 6
  | .capacity => 7

/-- The number `FAULT` holds: 0 is `NONE` (R24, R99). -/
def faultCode : Option EncFault → BitVec 8
  | none => 0
  | some c => c.code

/-- The 8-bit `status` of a response: 0 is OK, else the fault code (R56). -/
def Response.statusCode (r : Response) : BitVec 8 := faultCode r.status

/-- The number of HOST's violation code (R100). -/
def HostFault.code : HostFault → BitVec 8
  | .overlap => 0x10
  | .order => 0x11
  | .afterDone => 0x12
  | .freeOverstated => 0x13

end Sys2Proof.Machine
end

