-- ==== Sys2Proof/Machine/SymbolRom.lean ====
section
/-! DEFINITION. The symbol ROM, a function of the configuration (spec/40_symbol_rom.md rules R62 to R68), the packed symbol
word (spec/30_encoding.md rule R54), and the meaning of `CFGW` (R71). -/

namespace Sys2Proof.Machine

/-- `round_half_up(p, q)`, the nearest natural to `p/q` with ties going up (R10). -/
def roundHalfUp (p q : Nat) : Nat := (q + 2 * p) / (2 * q)

/-- `ticks(ns)` at a tick frequency, on unbounded naturals (R62). -/
def ticks (hz ns : CfgWord) : Nat := roundHalfUp (ns.toNat * hz.toNat) 1000000000

/-- `Rt = ticks(CFG[RST_NS])` (R65). -/
def Cfg.resetTicks (c : Cfg) : Nat := ticks c.tickHz c.rstNs

/-- `ROM[k]` (R63, R64, R65): a pure lookup with no error condition (R67). -/
def rom (c : Cfg) : RomIndex → Symbol
  | .zero => { lvl0 := true, dur0 := ticks c.tickHz c.t0hNs, lvl1 := false, dur1 := ticks c.tickHz c.t0lNs }
  | .one => { lvl0 := true, dur0 := ticks c.tickHz c.t1hNs, lvl1 := false, dur1 := ticks c.tickHz c.t1lNs }
  | .reset =>
    { lvl0 := false, dur0 := c.resetTicks - c.resetTicks / 2, lvl1 := false, dur1 := c.resetTicks / 2 }

/-- A duration is at least 1 and fits in `DUR_W` bits (R68). -/
def durFits (d : Nat) : Bool := decide (1 ≤ d) && decide (d ≤ Config.durMax)

/-- Both durations of a symbol fit (R22, R68). -/
def Symbol.fits (s : Symbol) : Bool := durFits s.dur0 && durFits s.dur1

/-- `CfgValid(CFG)` (R68). -/
def Cfg.valid (c : Cfg) : Bool :=
  durFits (ticks c.tickHz c.t0hNs) && durFits (ticks c.tickHz c.t0lNs) &&
  durFits (ticks c.tickHz c.t1hNs) && durFits (ticks c.tickHz c.t1lNs) &&
  decide (1 ≤ c.resetTicks / 2) && decide (c.resetTicks - c.resetTicks / 2 ≤ Config.durMax)

/-- The packed word `{lvl1, dur1[14:0], lvl0, dur0[14:0]}` (R54). -/
def Symbol.pack (s : Symbol) : SymWord :=
  BitVec.ofBool s.lvl1 ++ BitVec.ofNat 15 s.dur1 ++ BitVec.ofBool s.lvl0 ++ BitVec.ofNat 15 s.dur0

/-- The symbol of a packed word (R54). -/
def Symbol.unpack (v : SymWord) : Symbol :=
  { lvl0 := v.getLsbD 15, dur0 := (v.extractLsb' 0 15).toNat, lvl1 := v.getLsbD 31, dur1 := (v.extractLsb' 16 15).toNat }

/-- R71's pseudocode. An index of 6 or more raises `ILLEGAL_CMD` before the lock is looked at (R103): the wrapper's decoder
never passes one on (assumption log 19). -/
def cfgw (idx : BitVec 4) (value : CfgWord) (s : State) : Except EncFault State :=
  match CfgReg.ofIndex idx with
  | none => .error .illegalCmd
  | some reg =>
    if s.cfgLock then .error .cfgLocked
    else .ok (respond [] false { s with cfg := s.cfg.set reg value })

/-- `CFGW idx, value` (R71). -/
def execCfgw (idx : BitVec 4) (value : CfgWord) (s : State) : Host.Outcome State Fault Refusal :=
  command (encode (.cfgw idx value)) s (cfgw idx value s)

end Sys2Proof.Machine
end

