-- ==== Sys2Proof/Machine/Encoder.lean ====
section
/-! DEFINITION. Payload assembly and the streaming bit encoder (spec/41_encoder.md): the meanings of `LOADC` (rule R72) and
`PULL` (R74 to R77), and the source's own algorithm `EncodeRaw` (R73), which the block does not run but agrees with (R80). -/

namespace Sys2Proof.Machine

/-! ### LOADC -/

/-- R72's pseudocode. -/
def loadc (r g b : Byte) (s : State) : Except EncFault State :=
  if s.cfg.valid then
    .ok (respond [] false { s with payload := Payload.load r g b, cfgLock := true })
  else .error .cfgInvalid

/-- `LOADC R=r, G=g, B=b` (R72). -/
def execLoadc (r g b : Byte) (s : State) : Host.Outcome State Fault Refusal :=
  command (encode (.loadc r g b)) s (loadc r g b s)

/-! ### PULL -/

/-- The contract checks of `PULL`, in R74's order (R103): the fault of the first that fails. -/
def pullCheck (cap : Nat) (p : Payload) (w free : Nat) (doneIn : Bool) : Option EncFault :=
  if !p.written then some .noPayload
  else if doneIn then some .afterDone
  else if w % 8 ≠ 0 ∨ w / 8 > Config.plen then some .cursor
  else if free > cap then some .capacity
  else none

/-- Which arm a `PULL` that passed the checks takes (R74): the stall test comes first. -/
def pullArm (w free : Nat) : Arm :=
  if free < Config.minChunk then .stall
  else if byteIndex w < Config.plen then .data
  else .terminate

/-- The output slots of a data call for one byte: slot `k` carries `ROM[byte[7-k]]`, written in increasing order (R76, R31). -/
def dataSlots (c : Cfg) (byte : Byte) : List Symbol :=
  (List.range Config.symsPerDataCall).foldl (fun slots k => memWriteO slots (rom c (RomIndex.ofBit (selBit byte k)))) []

/-- The output slots of each arm (R75, R76, R77). Only the data arm reads the payload; the checks of R74 come before it, so
the read is defined there (R30). -/
def pullSlots (c : Cfg) (p : Payload) (w : Nat) : Arm → List Symbol
  | .stall => []
  | .data =>
    match memReadP p (byteIndex w) with
    | some byte => dataSlots c byte
    | none => []
  | .terminate => memWriteO [] (rom c .reset)

/-- R74's pseudocode: a `PULL` writes no state of ENC (R26), it only returns. -/
def pull (w free : CountWord) (doneIn : Bool) (s : State) : Except EncFault State :=
  match pullCheck s.par.cap s.payload (zext w) (zext free) doneIn with
  | some c => .error c
  | none =>
    .ok (respond (pullSlots s.cfg s.payload (zext w) (pullArm (zext w) (zext free)))
      (doneOut (pullArm (zext w) (zext free)) doneIn) s)

/-- `PULL W=w, FREE=free, DONE=doneIn` (R74). -/
def execPull (w free : CountWord) (doneIn : Bool) (s : State) : Host.Outcome State Fault Refusal :=
  command (encode (.pull w free doneIn)) s (pull w free doneIn s)

/-! ### The source's algorithm and the frame -/

/-- The eight symbols of a byte, most significant bit first, as the source's algorithm lists them (R73). -/
def byteSymbols (c : Cfg) (byte : Byte) : List Symbol :=
  [7, 6, 5, 4, 3, 2, 1, 0].map fun i => rom c (RomIndex.ofBit (byte.getLsbD i))

/-- `EncodeRaw(payload, len, W, free, done_in)` with `len` the length of the list (R73): a total function with no failure
path. -/
def encodeRaw (c : Cfg) (payload : List Byte) (w free : Nat) (doneIn : Bool) : Nat × List Symbol × Bool :=
  if free < 8 then (0, [], doneIn)
  else
    match payload[w / 8]? with
    | some byte => (8, byteSymbols c byte, doneIn)
    | none => (1, [rom c .reset], true)

/-- `PAYLOAD` as the list of its bytes in transmission order (R21, R32). -/
def Payload.bytes (p : Payload) : List Byte := [p.green, p.red, p.blue]

/-- The frame of a payload: its data symbols, bytes in order and most significant bit first, then exactly one RESET (R14,
R81). -/
def frame (c : Cfg) (payload : List Byte) : List Symbol := payload.flatMap (byteSymbols c) ++ [rom c .reset]

end Sys2Proof.Machine
end

