-- ==== Sys2Proof/Machine/Dispatch.lean ====
section
/-! DEFINITION. The meaning of each command of ENC, one arm per constructor of Instr (spec/60_exceptions.md rule R102, "run
the command's rule"). -/

namespace Sys2Proof.Machine

def exec (i : Instr) (s : State) : Host.Outcome State Fault Refusal :=
  match i with
  | .pull w free doneIn => Sys2Proof.Machine.execPull w free doneIn s
  | .loadc r g b => Sys2Proof.Machine.execLoadc r g b s
  | .cfgw idx value => Sys2Proof.Machine.execCfgw idx value s

end Sys2Proof.Machine
end

