-- ==== Sys2Proof/Machine/Serializer.lean ====
section
/-! DEFINITION. The pulse generator PG and the data line (spec/42_serializer.md rules R83 to R90): how a symbol is played tick
by tick, underruns, enabling and disabling, and the waveform a frame stands for. -/

namespace Sys2Proof.Machine

/-- One tick lasts `10^9 / CFG[TICK_HZ]` nanoseconds (R83, R114). The spec gives no period for `TICK_HZ = 0`, which no valid
configuration has (R68). -/
def Cfg.tickNs (c : Cfg) : Rat := 1000000000 / (c.tickHz.toNat : Rat)

/-- The ticks a symbol occupies in all (R84). -/
def Symbol.total (s : Symbol) : Nat := s.dur0 + s.dur1

/-- The level of the line `elapsed` ticks into a symbol: `lvl0` for `dur0` ticks, then `lvl1` (R84). -/
def Symbol.levelAt (s : Symbol) (elapsed : Nat) : Bool := if elapsed < s.dur0 then s.lvl0 else s.lvl1

/-- Remove the head symbol of `RING` (R89). A symbol of no ticks is over as soon as it is removed (assumption log 18); no
valid configuration makes one. -/
def takeHead : List Symbol → Option (Symbol × List Symbol)
  | [] => none
  | h :: t => if h.total = 0 then takeHead t else some (h, t)

/-- One tick of playing `sym`, `elapsed` ticks of which are over. When its second part ends and the next symbol is in `RING`, that
one stays there until it begins, in the very next tick; if there is none this is an underrun (R84, R85, R89). -/
def playTick (sym : Symbol) (elapsed : Nat) (s : State) : State :=
  if elapsed + 1 < sym.total then { s with line := sym.levelAt elapsed, play := .playing sym (elapsed + 1) }
  else { s with line := sym.levelAt elapsed, play := if s.ring.isEmpty then .starved false else .idle }

/-- The tick in which PG is free to begin the head of `RING`: it removes it and plays its first tick; the line is low if there is
none (R86, R89; assumption log 14). -/
def startTick (s : State) : State :=
  match takeHead s.ring with
  | some (h, t) => playTick h 0 { s with ring := t }
  | none => { s with line := false, ring := [] }

/-- A tick of the gap after an underrun, `left` of whose low ticks are still to come (R85). -/
def gapTick (left : Nat) (s : State) : State :=
  match left with
  | 0 => startTick s
  | n + 1 => { s with line := false, play := .gap n }

/-- One tick of PG (R85, R89). After an underrun the line is low until a symbol is there, and then for a free number of
further ticks, with at least one low tick in all (assumption log 13). -/
def pgTick (s : State) : State :=
  if s.en then
    match s.play with
    | .idle => startTick s
    | .playing sym elapsed => playTick sym elapsed s
    | .starved gapped =>
      match s.ring with
      | [] => { s with line := false, play := .starved true }
      | _ :: _ =>
        gapTick (Config.gapTicks s.draws + if gapped then 0 else 1) { s with draws := s.draws + 1 }
    | .gap left => gapTick left s
  else { s with line := false }

/-- `EN <- 0`: PG plays nothing and the line is low (R86, R89). `RING` keeps its symbols, the one that would have begun next
among them (R85: none is dropped). Whether a symbol cut off in the middle goes on after the next enable is free. An underrun, and
a gap after one, ends here: after the next enable PG starts afresh, with no low tick owed. The spec says none of this of `EN <- 0`
(assumption log 15). -/
def disable (s : State) : State :=
  match s.play with
  | .playing sym elapsed =>
    { s with en := false, line := false, draws := s.draws + 1,
             play := if Config.cutSymbolResumes s.draws then .playing sym elapsed else .idle }
  | _ => { s with en := false, line := false, play := .idle }

/-- PG is in the middle of a symbol. -/
def Play.busy : Play → Bool
  | .playing _ _ => true
  | _ => false

/-- `RING` is empty and PG has finished the last symbol (R93). -/
def drained (s : State) : Bool := s.ring.isEmpty && !s.play.busy

/-- PG's free-slot count, `RING_DEPTH - length(RING)` (R28, R89). -/
def freeSlots (s : State) : Nat := s.par.ringDepth - s.ring.length

/-! ### The waveform -/

/-- `Wave(frame)`: the (level, ticks) segments of the symbols in order (R87). -/
def wave (syms : List Symbol) : List (Bool × Nat) := syms.flatMap fun s => [(s.lvl0, s.dur0), (s.lvl1, s.dur1)]

/-- The level of the line in each tick of a list of segments. -/
def levels (segs : List (Bool × Nat)) : List Bool := segs.flatMap fun g => List.replicate g.2 g.1

/-- The bits of a byte in the order they are sent (R33). -/
def sentBits (byte : Byte) : List Bool := [7, 6, 5, 4, 3, 2, 1, 0].map byte.getLsbD

/-- `T_frame`, the length in ticks of the frame of a payload (R87). -/
def frameTicks (c : Cfg) (payload : List Byte) : Nat :=
  ((payload.flatMap sentBits).map fun bit => if bit then (rom c .one).total else (rom c .zero).total).sum + c.resetTicks

end Sys2Proof.Machine
end

