-- ==== Sys2Proof/Machine/HostAgent.lean ====
section
/-! DEFINITION. The command wrapper that feeds ENC (spec/60_exceptions.md rule R102), the host agent HOST with its duties, its
transmission routine and its boot (spec/42_serializer.md rules R91 to R98, spec/70_reset_and_hazards.md rule R113), and what
each event of the inbox does. -/

namespace Sys2Proof.Machine

/-! ### ENC's port -/

/-- `Step(cmd)` (R102): a stuck ENC takes no step, an illegal word raises `ILLEGAL_CMD`, a command runs its rule. -/
def encStep (cmd : CmdWord) (s : State) : Host.Outcome State Fault Refusal :=
  match decode cmd with
  | .cmd i => exec i s
  | .illegal _ => command cmd s (.error .illegalCmd)

/-! ### HOST's duties -/

/-- The duty of R94 that issuing a command would breach. The order in which a doubly wrong `PULL` is judged is the model's
(assumption log 10). Without a cursor (no `LOADC` of HOST's since reset) there is no transmission whose counts a `PULL` could
contradict (assumption log 11). A `PULL` after completion that passes the flag in is left to ENC (R94, R117) if its `W` is 25
and its `free` is not overstated; otherwise the breach of R94 comes before R117's `AFTER_DONE` (assumption log 10). -/
def hostBreach (i : Instr) (s : State) : Option HostFault :=
  match i with
  | .loadc _ _ _ => if s.active then some .overlap else none
  | .pull w free doneIn =>
    if s.cursorSet = true ∧ s.done = true ∧ doneIn = false then some .afterDone
    else if s.cursorSet = true ∧ (zext w ≠ s.w ∨ doneIn ≠ s.done) then some .order
    else if freeSlots s < zext free then some .freeOverstated
    else none
  | .cfgw _ _ => none

/-- What HOST does with a response: after a `LOADC` the cursor is created fresh (R91); after a `PULL` it appends the symbols to
`RING` (R92) and threads the cursor (R18, R19). A fault response ends the run and HOST does nothing with it (R91): that it does
not release the channel either, so that `EN` and `ACTIVE` stay as they are, is the model's choice (assumption log 33). -/
def hostAbsorb (i : Instr) (s : State) : State :=
  match s.rsp with
  | none => s
  | some r =>
    if r.status.isSome then s
    else
      match i with
      | .loadc _ _ _ => { s with w := 0, done := false, cursorSet := true }
      | .pull _ _ _ =>
        if s.cursorSet then { s with ring := s.ring ++ r.syms, w := s.w + r.count, done := r.doneOut }
        else { s with ring := s.ring ++ r.syms }
      | .cfgw _ _ => s

/-- One command of HOST's to ENC and what HOST does with the response. -/
def hostRun (i : Instr) (s : State) : Host.Outcome State Fault Refusal :=
  match exec i s with
  | .next t => .next (hostAbsorb i t)
  | .fault f => .fault f
  | .refused r => .refused r

/-- HOST issues a command word: a breach of its duties sets `HFAULT`, and ENC never sees the command (R94; assumption log
9). -/
def hostIssue (cmd : CmdWord) (s : State) : Host.Outcome State Fault Refusal :=
  match decode cmd with
  | .illegal _ => encStep cmd s
  | .cmd i =>
    match hostBreach i s with
    | some b => .next { s with hfault := some b }
    | none => hostRun i s

/-- HOST acts only while its run goes on: no fault response (R91), no violation (R94), and a boot that succeeded (R101). -/
def hostAct (s : State) (act : Host.Outcome State Fault Refusal) : Host.Outcome State Fault Refusal :=
  if s.fault.isSome then .fault .encStuck
  else if s.hfault.isSome then .fault .hostStuck
  else if s.boot = .ready then act
  else .fault .noHost

/-- The six words of `CFG_TIMING`, in index order (R61). The event puts them at the head of the inbox, so that nothing falls
between them (assumption log 30), and those that are left when one of them faults stay there (assumption log 34). -/
def cfgTimingWords (hz t0h t0l t1h t1l rst : CfgWord) : List CmdWord :=
  [encode (.cfgw 0 hz), encode (.cfgw 1 t0h), encode (.cfgw 2 t0l), encode (.cfgw 3 t1h), encode (.cfgw 4 t1l),
   encode (.cfgw 5 rst)]

/-! ### SET_COLOR -/

/-- `fail:` of R91: the resources are released and `FAIL` is returned. -/
def failTransmission (s : State) : State := { disable s with active := false, ret := some .fail }

/-- The end of a successful transmission (R91). -/
def completeTransmission (s : State) : State := { disable s with active := false, ret := some .ok }

/-- R91 up to its loop: the overlap check, enabling, the submit draw, the `LOADC` and the fresh cursor. -/
def startTransmission (r g b : Byte) (submitFails : Bool) (s : State) : Host.Outcome State Fault Refusal :=
  if s.active then .next { s with hfault := some .overlap }
  else if submitFails then .next (failTransmission { s with active := true, en := true })
  else hostRun (.loadc r g b) { s with active := true, en := true, waited := 0, ret := none }

/-- One round of R91's loop, `while done = 0`, with the `f` HOST chooses; nothing when HOST is not in the loop. -/
def pullRound (free : CountWord) (s : State) : Host.Outcome State Fault Refusal :=
  if s.active && !s.done then hostIssue (encode (.pull (BitVec.ofNat 16 s.w) free s.done)) s else .next s

/-- The wait has lasted longer than `DRAIN_TIMEOUT` allows (R93; assumption log 16). -/
def timedOut (s : State) : Bool :=
  match s.par.drainTimeout with
  | none => false
  | some t => decide (t < s.waited) || (!drained s && decide (t ≤ s.waited))

/-- R91 after its loop: a timeout or a failing drain returns `FAIL`, an empty line ends the transmission, and otherwise HOST
waits on. A failing drain may strike at any moment of a transmission, in its loop too ("including failure during a
transmission", R91), so that for every `RING_DEPTH` every beginning of the frame may be all the line has shown (R96; assumption
log 32). Nothing else happens while the loop runs, and nothing outside a transmission. -/
def waitForDrain (drainFails : Bool) (s : State) : State :=
  if s.active then
    if drainFails || (s.done && timedOut s) then failTransmission s
    else if s.done && drained s then completeTransmission s
    else s
  else s

/-! ### Time, boot and power -/

/-- One tick: PG's, and HOST's count of its wait while the line is not drained (R93). -/
def tick (s : State) : State :=
  pgTick (if s.active && s.done && !drained s then { s with waited := s.waited + 1 } else s)

/-- One step of the boot, taken from phase `before` (R113): a refusal by the platform is fatal (R101). The phases are the model's
(assumption log 21). -/
def bootStep (before after : Boot) (ok : Bool) (s : State) : Host.Outcome State Fault Refusal :=
  if s.boot = before then .next { s with boot := if ok then after else .failed } else .fault .bootOrder

/-- Boot step 1 (R113): acquiring the GPIO resets its pin "to known state". That state is not given, so the level of the
power-enable line is free from here on until `power_on()` or `power_off()` sets it (assumption log 31). -/
def acquireGpio (ok : Bool) (s : State) : Host.Outcome State Fault Refusal :=
  bootStep .off .gpio ok { s with power := Config.powerAfterPinReset s.draws, draws := s.draws + 1 }

/-- `power_on()` and `power_off()` set the power-enable line and nothing else (R98). -/
def setPower (on ok : Bool) (s : State) : Host.Outcome State Fault Refusal :=
  if ok then .next { s with power := on } else .fault .gpioFailed

/-! ### Events -/

/-- What an event does. `CFG_TIMING` becomes its six commands at the head of the inbox. R61 does not say what becomes of the rest
when one of them faults: here they stay, and the next is HOST's next step, which a faulted ENC has none for (`encStuck`); that is
the model's choice (assumption log 34). -/
def runEvent (e : Event) (s : State) : Host.Outcome State Fault Refusal :=
  match e with
  | .port cmd => encStep cmd s
  | .issue cmd => hostAct s (hostIssue cmd s)
  | .cfgTiming hz t0h t0l t1h t1l rst =>
    hostAct s (.next { s with inbox := (cfgTimingWords hz t0h t0l t1h t1l rst).map .issue ++ s.inbox })
  | .setColor r g b submitFails => hostAct s (startTransmission r g b submitFails s)
  | .pull free => hostAct s (pullRound free s)
  | .drain drainFails => hostAct s (.next (waitForDrain drainFails s))
  | .acquireGpio ok => acquireGpio ok s
  | .configureChannel ok => bootStep .gpio .ready ok s
  | .power on ok => setPower on ok s
  | .tick => .next (tick s)
  | .blockReset => .next (blockReset s)

/-- The next event, or a tick of PG when nothing is asked of the machine (assumption log 23). -/
def nextMove (s : State) : Host.Outcome State Fault Refusal :=
  match s.inbox with
  | [] => .next (tick s)
  | e :: rest => runEvent e { s with inbox := rest }

end Sys2Proof.Machine
end

