-- ==== Sys2Proof/Machine/Step.lean ====
section
/-! DEFINITION. One step of the machine, and how a command word is put where the next step takes it. -/

namespace Sys2Proof.Machine

/-- One step: the next event of the inbox happens. -/
def step (s : State) : Host.Outcome State Fault Refusal := nextMove s

/-- `s` with a command word of spec/opcode_table.json on ENC's port, first in line: the very next step runs it. -/
def State.withFetchWord (s : State) (nbits w : Nat) : State :=
  { s with inbox := .port (tableWord nbits w) :: s.inbox }

end Sys2Proof.Machine
end

