-- ==== Sys2Proof/Machine/Assembler.lean ====
section
/-! DEFINITION. The assembler language of spec/30_encoding.md rules R60 and R61: a line of text to a command, to a
pseudo-instruction, or to nothing, and the event that stands for it. What the two rules leave open (blanks, capitals, order of
the operands, values out of range) is the model's (assumption log 28). -/

namespace Sys2Proof.Machine

/-- A line of R60's language. -/
inductive AsmLine where
  /-- Blank, or a comment only. -/
  | blank
  /-- One command. -/
  | cmd (i : Instr)
  /-- `CFG_TIMING hz, t0h, t0l, t1h, t1l, rst` (R61). -/
  | cfgTiming (hz t0h t0l t1h t1l rst : CfgWord)
  /-- `SET_COLOR r, g, b` (R61). -/
  | setColor (r g b : Byte)
deriving DecidableEq, Repr

/-- The tokens of a line. -/
inductive AsmTok where
  | word (cs : List Char)
  | comma
  | eq
deriving DecidableEq, Repr

/-- The token of the letters read so far, if there are any. -/
def flushWord : List Char → List AsmTok
  | [] => []
  | c :: cs => [.word (c :: cs)]

/-- The tokens of a line, `acc` being the letters of the word begun; `;` starts a comment (R60). -/
def asmTokens (acc : List Char) : List Char → List AsmTok
  | [] => flushWord acc
  | c :: cs =>
    if c = ';' then flushWord acc
    else if c = ' ' ∨ c = '\t' ∨ c = '\r' then flushWord acc ++ asmTokens [] cs
    else if c = ',' then flushWord acc ++ .comma :: asmTokens [] cs
    else if c = '=' then flushWord acc ++ .eq :: asmTokens [] cs
    else asmTokens (acc ++ [c]) cs

/-- The value of a digit, decimal or hexadecimal. -/
def digitValue (c : Char) : Option Nat :=
  if 48 ≤ c.toNat ∧ c.toNat ≤ 57 then some (c.toNat - 48)
  else if 65 ≤ c.toNat ∧ c.toNat ≤ 70 then some (c.toNat - 55)
  else if 97 ≤ c.toNat ∧ c.toNat ≤ 102 then some (c.toNat - 87)
  else none

/-- Digits in a base, after the value `n` of those before them. -/
def asmDigits (base n : Nat) : List Char → Option Nat
  | [] => some n
  | c :: cs =>
    match digitValue c with
    | some d => if d < base then asmDigits base (base * n + d) cs else none
    | none => none

/-- A number: decimal, or hexadecimal with `0x` (R60). -/
def asmNumber (cs : List Char) : Option Nat :=
  match cs with
  | [] => none
  | [_] => asmDigits 10 0 cs
  | c :: x :: rest => if c = '0' ∧ x = 'x' ∧ rest ≠ [] then asmDigits 16 0 rest else asmDigits 10 0 cs

/-- A number below `limit` as the next token, and the tokens after it. -/
def asmValue (limit : Nat) : List AsmTok → Option (Nat × List AsmTok)
  | .word cs :: rest =>
    match asmNumber cs with
    | some n => if n < limit then some (n, rest) else none
    | none => none
  | _ => none

/-- `<key>=<number>`. -/
def asmKeyed (key : List Char) (limit : Nat) : List AsmTok → Option (Nat × List AsmTok)
  | .word k :: .eq :: rest => if k = key then asmValue limit rest else none
  | _ => none

/-- The comma between two operands. -/
def asmComma : List AsmTok → Option (List AsmTok)
  | .comma :: rest => some rest
  | _ => none

/-- The end of the line. -/
def asmEnd (l : AsmLine) : List AsmTok → Option AsmLine
  | [] => some l
  | _ :: _ => none

/-- A register of `CFGW`: a name of R17, or `#` and an index from 0 to 15 (R60). -/
def asmRegister (cs : List Char) : Option (BitVec 4) :=
  if cs = ['T', 'I', 'C', 'K', '_', 'H', 'Z'] then some CfgReg.tickHz.index
  else if cs = ['T', '0', 'H', '_', 'N', 'S'] then some CfgReg.t0hNs.index
  else if cs = ['T', '0', 'L', '_', 'N', 'S'] then some CfgReg.t0lNs.index
  else if cs = ['T', '1', 'H', '_', 'N', 'S'] then some CfgReg.t1hNs.index
  else if cs = ['T', '1', 'L', '_', 'N', 'S'] then some CfgReg.t1lNs.index
  else if cs = ['R', 'S', 'T', '_', 'N', 'S'] then some CfgReg.rstNs.index
  else
    match cs with
    | c :: rest =>
      match asmNumber rest with
      | some n => if c = '#' ∧ n < 16 then some (BitVec.ofNat 4 n) else none
      | none => none
    | [] => none

/-- The operands of `PULL`. -/
def asmPull (ts : List AsmTok) : Option AsmLine := do
  let (w, ts) ← asmKeyed ['W'] 65536 ts
  let ts ← asmComma ts
  let (f, ts) ← asmKeyed ['F', 'R', 'E', 'E'] 65536 ts
  let ts ← asmComma ts
  let (d, ts) ← asmKeyed ['D', 'O', 'N', 'E'] 2 ts
  asmEnd (.cmd (.pull (BitVec.ofNat 16 w) (BitVec.ofNat 16 f) (decide (d = 1)))) ts

/-- The operands of `LOADC`, in the public order. -/
def asmLoadc (ts : List AsmTok) : Option AsmLine := do
  let (r, ts) ← asmKeyed ['R'] 256 ts
  let ts ← asmComma ts
  let (g, ts) ← asmKeyed ['G'] 256 ts
  let ts ← asmComma ts
  let (b, ts) ← asmKeyed ['B'] 256 ts
  asmEnd (.cmd (.loadc (BitVec.ofNat 8 r) (BitVec.ofNat 8 g) (BitVec.ofNat 8 b))) ts

/-- The operands of `CFGW`. -/
def asmCfgw : List AsmTok → Option AsmLine
  | .word reg :: ts => do
    let idx ← asmRegister reg
    let ts ← asmComma ts
    let (v, ts) ← asmValue (2 ^ 32) ts
    asmEnd (.cmd (.cfgw idx (BitVec.ofNat 32 v))) ts
  | _ => none

/-- The operands of `CFG_TIMING`. -/
def asmCfgTiming (ts : List AsmTok) : Option AsmLine := do
  let (hz, ts) ← asmValue (2 ^ 32) ts
  let ts ← asmComma ts
  let (t0h, ts) ← asmValue (2 ^ 32) ts
  let ts ← asmComma ts
  let (t0l, ts) ← asmValue (2 ^ 32) ts
  let ts ← asmComma ts
  let (t1h, ts) ← asmValue (2 ^ 32) ts
  let ts ← asmComma ts
  let (t1l, ts) ← asmValue (2 ^ 32) ts
  let ts ← asmComma ts
  let (rst, ts) ← asmValue (2 ^ 32) ts
  asmEnd (.cfgTiming (BitVec.ofNat 32 hz) (BitVec.ofNat 32 t0h) (BitVec.ofNat 32 t0l) (BitVec.ofNat 32 t1h)
    (BitVec.ofNat 32 t1l) (BitVec.ofNat 32 rst)) ts

/-- The operands of `SET_COLOR`. -/
def asmSetColor (ts : List AsmTok) : Option AsmLine := do
  let (r, ts) ← asmValue 256 ts
  let ts ← asmComma ts
  let (g, ts) ← asmValue 256 ts
  let ts ← asmComma ts
  let (b, ts) ← asmValue 256 ts
  asmEnd (.setColor (BitVec.ofNat 8 r) (BitVec.ofNat 8 g) (BitVec.ofNat 8 b)) ts

/-- The line that a list of tokens spells, by its mnemonic. -/
def asmParse : List AsmTok → Option AsmLine
  | [] => some .blank
  | .word m :: ts =>
    if m = ['P', 'U', 'L', 'L'] then asmPull ts
    else if m = ['L', 'O', 'A', 'D', 'C'] then asmLoadc ts
    else if m = ['C', 'F', 'G', 'W'] then asmCfgw ts
    else if m = ['C', 'F', 'G', '_', 'T', 'I', 'M', 'I', 'N', 'G'] then asmCfgTiming ts
    else if m = ['S', 'E', 'T', '_', 'C', 'O', 'L', 'O', 'R'] then asmSetColor ts
    else none
  | .comma :: _ => none
  | .eq :: _ => none

/-- One line of text (R60: one command per line). -/
def assembleLine (line : List Char) : Option AsmLine := asmParse (asmTokens [] line)

/-- What a line asks of HOST: a command is issued, a pseudo-instruction is HOST's routine (R61). `submitFails` is the draw a
`SET_COLOR` meets (R96). -/
def AsmLine.event (submitFails : Bool) : AsmLine → Option Event
  | .blank => none
  | .cmd i => some (.issue (encode i))
  | .cfgTiming hz t0h t0l t1h t1l rst => some (.cfgTiming hz t0h t0l t1h t1l rst)
  | .setColor r g b => some (.setColor r g b submitFails)

end Sys2Proof.Machine
end

