-- ==== Sys2Proof/Safety.lean ====
section
/-! DEFINITION. What the statements are phrased in: the invariant of the machine, a run without faults, the trace of the data
line over ticks, and HOST's loop against ENC alone (spec/41_encoder.md rule R81). -/

namespace Sys2Proof.Machine

/-- ENC has no fault recorded, and so takes commands (R102). -/
def State.takesCommands (s : State) : Prop := s.fault = none

/-- HOST's run goes on: no fault response, no violation, and a boot that succeeded (R91, R94, R101). -/
def State.hostRuns (s : State) : Prop := s.fault = none ∧ s.hfault = none ∧ s.boot = .ready

/-- A response is a record of R25: `syms` has exactly `count` symbols, at most 8, each of legal durations, and a faulting
command returns none and no completion. -/
structure Response.WF (r : Response) : Prop where
  count_eq : r.count = r.syms.length
  count_le : r.count ≤ 8
  syms_fit : ∀ x ∈ r.syms, x.fits = true
  faulted : r.status.isSome = true → r = { status := r.status, count := 0, doneOut := false, syms := [] }

/-- A symbol in play is legal, has begun, and is not yet over: a symbol that has not begun is in `RING` (R85, R89). -/
def Play.WF (p : Play) : Prop := ∀ sym e, p = .playing sym e → sym.fits = true ∧ 0 < e ∧ e < sym.total

/-- The cursor positions of a transmission that keeps its contract, with the flag (R18, R19). -/
def cursorLegal (w : Nat) (done : Bool) : Prop := (w ∈ [0, 8, 16, 24] ∧ done = false) ∨ (w = 25 ∧ done = true)

/-- The invariant of the machine. -/
structure State.Inv (s : State) : Prop where
  /-- `CAP` is at least 8 (R8). -/
  cap_min : 8 ≤ s.par.cap
  /-- The payload is written exactly when the configuration is locked: the first successful `LOADC` does both (R20, R21). -/
  lock_payload : s.payload.written = s.cfgLock
  /-- A locked configuration is valid (R68, R72). -/
  lock_valid : s.cfgLock = true → s.cfg.valid = true
  /-- The response on the port is well formed and carries the fault that is recorded (R25, R104). -/
  rsp_wf : ∀ r, s.rsp = some r → r.WF ∧ r.status = s.fault
  /-- `RING` never holds more than `RING_DEPTH` symbols (R28, R92). -/
  ring_bound : s.ring.length ≤ s.par.ringDepth
  /-- Every queued symbol has durations that fit in `DUR_W` bits (R22, R68). -/
  ring_fits : ∀ x ∈ s.ring, x.fits = true
  /-- So has the symbol in play, which has begun and is not over yet. -/
  play_wf : s.play.WF
  /-- HOST's cursor takes only the values 0, 8, 16, 24 and, done, 25 (R18). -/
  cursor_legal : s.cursorSet = true → cursorLegal s.w s.done
  /-- A cursor exists only once a payload is loaded (R91). -/
  cursor_loaded : s.cursorSet = true → s.payload.written = true
  /-- The channel is enabled exactly while a transmission is in flight (R91). -/
  channel : s.en = s.active
  /-- The line is low while the channel is disabled (R86). -/
  line_idle : s.en = false → s.line = false
  /-- A transmission in flight has a HOST, and a cursor unless its `LOADC` faulted (R91). -/
  active_boot : s.active = true → s.boot = .ready ∧ (s.fault = none → s.cursorSet = true)
  /-- A transmission in flight has returned nothing yet (R91). -/
  ret_open : s.active = true → s.ret = none

/-- A state no fault has been recorded in: what a successful run ends in (R94, R105). -/
def State.safe (s : State) : Prop := s.fault = none ∧ s.hfault = none ∧ s.boot ≠ .failed

/-- `n` ticks. -/
def ticksFrom : Nat → State → State
  | 0, s => s
  | n + 1, s => ticksFrom n (tick s)

/-- The level of the line in each of the next `n` ticks. -/
def lineTrace : Nat → State → List Bool
  | 0, _ => []
  | n + 1, s => (tick s).line :: lineTrace n (tick s)

/-- The levels the line shows in the ticks of the next `n` steps, one for each step that is a tick. -/
def lineDuring : Nat → State → List Bool
  | 0, _ => []
  | n + 1, s =>
    match step s with
    | .next t => (if s.inbox = [] ∨ s.inbox.head? = some .tick then [t.line] else []) ++ lineDuring n t
    | .fault _ => []
    | .refused _ => []

/-- What HOST and PG do in a transmission that has begun and meets no failure: rounds of the loop, ticks, and looks at the wait
for the drain (R91). -/
def Event.keepsGoing (e : Event) : Prop := (∃ f, e = .pull f) ∨ e = .tick ∨ e = .drain false

/-- The `free` HOST passes in an event, if the event is a round of its loop (R91). -/
def Event.freeOf : Event → Option CountWord
  | .pull f => some f
  | _ => none

/-- A step that only a HOST can take: one of its commands or routines (R91, R94, R101). -/
def Event.isHosts (e : Event) : Prop :=
  (∃ cmd, e = .issue cmd) ∨ (∃ h a b c d r, e = .cfgTiming h a b c d r) ∨ (∃ r g b f, e = .setColor r g b f) ∨
  (∃ f, e = .pull f) ∨ ∃ f, e = .drain f

/-- The next event hands ENC the `LOADC` of this colour: its word on the port or issued by HOST, or `SET_COLOR`, whose submit
does not fail. -/
def State.nextLoads (s : State) (r g b : Byte) : Prop :=
  ∃ rest, s.inbox = .setColor r g b false :: rest ∨
    ∃ cmd, decode cmd = .cmd (.loadc r g b) ∧ (s.inbox = .port cmd :: rest ∨ s.inbox = .issue cmd :: rest)

/-- HOST's loop against ENC alone (R81): the cursor threaded so far, the symbols received, and ENC. -/
structure Thread where
  w : Nat
  done : Bool
  sent : List Symbol
  enc : State

/-- A transmission after a `LOADC`: `W = 0` and `done = 0` (R81). -/
def Thread.start (s : State) : Thread := { w := 0, done := false, sent := [], enc := s }

/-- One `PULL` of the loop with this `free`; the loop has ended once `done = 1`. `none` when ENC does not answer OK. -/
def Thread.pull (t : Thread) (free : CountWord) : Option Thread :=
  if t.done then some t
  else
    match exec (.pull (BitVec.ofNat 16 t.w) free t.done) t.enc with
    | .next e =>
      match e.rsp with
      | some r =>
        if r.status.isSome then none
        else some { w := t.w + r.count, done := r.doneOut, sent := t.sent ++ r.syms, enc := e }
      | none => none
    | .fault _ => none
    | .refused _ => none

/-- The loop over a list of free counts. -/
def Thread.run (t : Thread) : List CountWord → Option Thread
  | [] => some t
  | f :: fs =>
    match t.pull f with
    | some u => u.run fs
    | none => none

/-- The word is none of R51's commands: its `op` is reserved, a reserved bit is set, or a `CFGW` names a register from 6 to 15
(R58), said on the word as a number. -/
def reservedWord (cmd : CmdWord) : Prop :=
  cmd.toNat / 2 ^ 60 ∉ [1, 2, 3] ∨
  (cmd.toNat / 2 ^ 60 = 1 ∧ cmd.toNat / 2 ^ 33 % 2 ^ 27 ≠ 0) ∨
  (cmd.toNat / 2 ^ 60 = 2 ∧ cmd.toNat / 2 ^ 24 % 2 ^ 36 ≠ 0) ∨
  (cmd.toNat / 2 ^ 60 = 3 ∧ cmd.toNat / 2 ^ 36 % 2 ^ 24 ≠ 0) ∨
  (cmd.toNat / 2 ^ 60 = 3 ∧ 6 ≤ cmd.toNat / 2 ^ 32 % 2 ^ 4)

/-- The next event is not a block reset. -/
def State.noReset (s : State) : Prop := s.inbox.head? ≠ some .blockReset

/-- How many of the calls offer at least 8 slots (R81). -/
def offers (frees : List CountWord) : Nat := frees.countP fun f => decide (8 ≤ f.toNat)

/-- How many symbols a transmission has received after these calls: a byte's 8 for each offer, and the RESET for the fourth
(R81). -/
def sentAfter (frees : List CountWord) : Nat := min (8 * offers frees) 25

end Sys2Proof.Machine
end

