-- ==== Sys2Proof/Certificates/Slice0/Obligations.lean ====
section
/-! DEFINITION. The statements for the provers, from the numbered rules of spec/. -/

open Sys2Proof Sys2Proof.Machine

/-! ### Reset, the step, decoding -/

/-- R112: the table of values after block reset, for the initial state and for a block reset in mid run. That the open
parameters and the events to come outlive a block reset, and that the power line is then any value, is the model's own
(assumption logs 1, 6 and 7). -/
def Obligations.BlockResetLeavesTheStatedValues : Prop :=
  (let r := State.reset
   r.cfg.tickHz = 20000000 ∧ r.cfg.t0hNs = 350 ∧ r.cfg.t0lNs = 700 ∧ r.cfg.t1hNs = 800 ∧ r.cfg.t1lNs = 600 ∧
   r.cfg.rstNs = 50000 ∧
   rom r.cfg .zero = { lvl0 := true, dur0 := 7, lvl1 := false, dur1 := 14 } ∧
   rom r.cfg .one = { lvl0 := true, dur0 := 16, lvl1 := false, dur1 := 12 } ∧
   rom r.cfg .reset = { lvl0 := false, dur0 := 500, lvl1 := false, dur1 := 500 } ∧
   r.cfgLock = false ∧ (∀ i, memReadP r.payload i = none) ∧ r.fault = none ∧ r.active = false ∧ r.hfault = none ∧
   r.cursorSet = false ∧ r.en = false ∧ r.ring = [] ∧ r.line = false) ∧
  (∀ s rest, s.inbox = .blockReset :: rest →
    ∃ power draws,
      step s = .next { State.reset with par := s.par, inbox := rest, power := power, draws := draws })

/-- A step with a command word on ENC's port runs the command the word decodes to, and only takes the word off the port;
`withFetchWord` puts a word of the opcode table there. The port is the model's own (assumption log 1). -/
def Obligations.StepRunsTheDecodedCommand : Prop :=
  (∀ s cmd rest i, s.inbox = .port cmd :: rest → decode cmd = .cmd i → step s = exec i { s with inbox := rest }) ∧
  (∀ s nbits w i, decodeTableWord nbits w = some i → step (s.withFetchWord nbits w) = exec i s)

/-- R51: the decoder, with the fields read off the word as a number. -/
def Obligations.DecodeFollowsTheBitTable : Prop :=
  ∀ cmd : CmdWord,
    (∀ w f d, decode cmd = .cmd (.pull w f d) ↔
      cmd.toNat / 2 ^ 33 = 0x1 * 2 ^ 27 ∧ w.toNat = cmd.toNat / 2 ^ 16 % 2 ^ 16 ∧ f.toNat = cmd.toNat % 2 ^ 16 ∧
      d = decide (cmd.toNat / 2 ^ 32 % 2 = 1)) ∧
    (∀ r g b, decode cmd = .cmd (.loadc r g b) ↔
      cmd.toNat / 2 ^ 24 = 0x2 * 2 ^ 36 ∧ r.toNat = cmd.toNat / 2 ^ 16 % 2 ^ 8 ∧ g.toNat = cmd.toNat / 2 ^ 8 % 2 ^ 8 ∧
      b.toNat = cmd.toNat % 2 ^ 8) ∧
    (∀ idx v, decode cmd = .cmd (.cfgw idx v) ↔
      cmd.toNat / 2 ^ 36 = 0x3 * 2 ^ 24 ∧ idx.toNat = cmd.toNat / 2 ^ 32 % 2 ^ 4 ∧ idx.toNat ≤ 5 ∧
      v.toNat = cmd.toNat % 2 ^ 32) ∧
    ((∃ why, decode cmd = .illegal why) ↔ ∀ i, decode cmd ≠ .cmd i)

/-- R58: exactly the words of the summary are no commands, and each of them on the port of an ENC that takes commands faults
with `ILLEGAL_CMD`. -/
def Obligations.ReservedWordsFaultIllegalCmd : Prop :=
  (∀ cmd, (∃ why, decode cmd = .illegal why) ↔ reservedWord cmd) ∧
  (∀ s cmd rest, s.takesCommands → s.inbox = .port cmd :: rest → reservedWord cmd →
    step s = .next { s with inbox := rest, fault := some .illegalCmd, faultCmd := cmd,
                            rsp := some { status := some .illegalCmd, count := 0, doneOut := false, syms := [] } })

/-- Decoding the word of a well-formed command gives the command back, whatever its operands. -/
def Obligations.DecodeEncodeRoundTrip : Prop :=
  ∀ i : Instr, i.wellFormed = true → decode (encode i) = .cmd i

/-- Every word that decodes has one meaning: it is the word of a well-formed command. -/
def Obligations.EncodeDecodeRoundTrip : Prop :=
  ∀ cmd i, decode cmd = .cmd i → encode i = cmd ∧ i.wellFormed = true

/-- A few words written out in 95_test_vectors.md decode to the commands they stand for. -/
def Obligations.SpecWordsDecode : Prop :=
  decode 0x1000000100180008#64 = .cmd (.pull 24 8 true) ∧
  decode 0x1000000000100008#64 = .cmd (.pull 16 8 false) ∧
  decode 0x20000000000A141E#64 = .cmd (.loadc 10 20 30) ∧
  decode 0x30000005000F4240#64 = .cmd (.cfgw 5 1000000) ∧
  decode 0x3000000600000000#64 = .illegal .reservedIndex ∧
  decode 0x0000000000000000#64 = .illegal .reservedOp ∧
  decode 0x1000000200000008#64 = .illegal .reservedBits

/-- Lines of R60's language in 95_test_vectors.md stand for the commands and routines they name; a value out of range, a
missing operand and an unknown register stand for nothing. Blanks are the model's (assumption log 28). -/
def Obligations.SpecLinesAssemble : Prop :=
  assembleLine "PULL W=24, FREE=8, DONE=1".toList = some (.cmd (.pull 24 8 true)) ∧
  assembleLine "LOADC R=1, G=0x80, B=0xFF".toList = some (.cmd (.loadc 1 128 255)) ∧
  assembleLine "CFGW TICK_HZ, 10000000".toList = some (.cmd (.cfgw 0 10000000)) ∧
  assembleLine "CFGW #15, 0xFFFFFFFF ; reserved".toList = some (.cmd (.cfgw 15 0xFFFFFFFF)) ∧
  assembleLine "SET_COLOR 255, 0, 128".toList = some (.setColor 255 0 128) ∧
  assembleLine "; a comment".toList = some .blank ∧
  assembleLine "PULL W=65536, FREE=8, DONE=0".toList = none ∧
  assembleLine "LOADC R=256, G=0, B=0".toList = none ∧
  assembleLine "CFGW #16, 0".toList = none ∧
  assembleLine "CFGW TICK_HZ".toList = none

/-- Every command, an ill-formed `CFGW` too, can be written as a line of R60's language, and HOST then issues its word. -/
def Obligations.EveryCommandHasALine : Prop :=
  ∀ i : Instr, ∃ line l, assembleLine line = some l ∧ ∀ draw, l.event draw = some (.issue (encode i))

/-! ### CFGW and LOADC -/

/-- `CFGW` (R71): of an unlocked configuration register `idx` gets `value` and every other register keeps its own; locked, or
with a reserved index, it faults and changes nothing else. -/
def Obligations.CfgwWritesOneRegisterOrFaults : Prop :=
  ∀ (s : State) (idx : BitVec 4) (value : CfgWord), s.takesCommands →
    (idx.toNat ≤ 5 → s.cfgLock = false →
      ∃ c, exec (.cfgw idx value) s =
          .next { s with cfg := c, rsp := some { status := none, count := 0, doneOut := false, syms := [] } } ∧
        ∀ q : CfgReg, c.get q = if q.index = idx then value else s.cfg.get q) ∧
    (idx.toNat ≤ 5 → s.cfgLock = true →
      exec (.cfgw idx value) s =
        .next { s with fault := some .cfgLocked, faultCmd := encode (.cfgw idx value),
                       rsp := some { status := some .cfgLocked, count := 0, doneOut := false, syms := [] } }) ∧
    (6 ≤ idx.toNat →
      exec (.cfgw idx value) s =
        .next { s with fault := some .illegalCmd, faultCmd := encode (.cfgw idx value),
                       rsp := some { status := some .illegalCmd, count := 0, doneOut := false, syms := [] } })

/-- `LOADC` (R72): with a valid configuration the payload is green, red, blue, marked written, and the configuration is locked;
with an invalid one it faults with `CFG_INVALID` and changes nothing else. -/
def Obligations.LoadcStoresGreenRedBlueOrFaults : Prop :=
  ∀ (s : State) (r g b : Byte), s.takesCommands →
    (s.cfg.valid = true →
      ∃ p, exec (.loadc r g b) s =
          .next { s with payload := p, cfgLock := true,
                         rsp := some { status := none, count := 0, doneOut := false, syms := [] } } ∧
        memReadP p 0 = some g ∧ memReadP p 1 = some r ∧ memReadP p 2 = some b ∧ ∀ i, 3 ≤ i → memReadP p i = none) ∧
    (s.cfg.valid = false →
      exec (.loadc r g b) s =
        .next { s with fault := some .cfgInvalid, faultCmd := encode (.loadc r g b),
                       rsp := some { status := some .cfgInvalid, count := 0, doneOut := false, syms := [] } })

/-- R68: validity, spelled on the conversion of R62; a tick frequency of 0 is never valid. -/
def Obligations.ConfigurationValidity : Prop :=
  ∀ c : Cfg,
    (c.valid = true ↔
      let t := fun ns : CfgWord => (2 * (ns.toNat * c.tickHz.toNat) + 1000000000) / 2000000000
      (1 ≤ t c.t0hNs ∧ t c.t0hNs ≤ 32767) ∧ (1 ≤ t c.t0lNs ∧ t c.t0lNs ≤ 32767) ∧
      (1 ≤ t c.t1hNs ∧ t c.t1hNs ≤ 32767) ∧ (1 ≤ t c.t1lNs ∧ t c.t1lNs ≤ 32767) ∧
      (2 ≤ t c.rstNs ∧ t c.rstNs ≤ 65534)) ∧
    (c.tickHz = 0 → c.valid = false)

/-- R20: the lock is clear after reset, a successful `LOADC` and no other command sets it, block reset clears it and nothing
else does, and while it is set the configuration, and so the ROM, stays as it is and a `CFGW` of a register faults. -/
def Obligations.LockProtectsTheConfiguration : Prop :=
  State.reset.cfgLock = false ∧
  (∀ r g b s t, exec (.loadc r g b) s = .next t → t.fault = none → t.cfgLock = true) ∧
  (∀ i s t, exec i s = .next t → s.cfgLock = false → t.cfgLock = true → (∃ r g b, i = .loadc r g b) ∧ t.fault = none) ∧
  (∀ s t, s.noReset → step s = .next t → s.cfgLock = true → t.cfgLock = true ∧ t.cfg = s.cfg) ∧
  (∀ s t, ¬ s.noReset → step s = .next t → t.cfgLock = false) ∧
  (∀ idx v s t, exec (.cfgw idx v) s = .next t → idx.toNat ≤ 5 → s.cfgLock = true → t.fault = some .cfgLocked)

/-- R21: only a `LOADC` writes the payload: whatever step changes it, block reset aside, hands ENC the `LOADC` of some colour
and leaves that colour's three bytes with the mark set; block reset clears the mark. -/
def Obligations.OnlyLoadcWritesThePayload : Prop :=
  ∀ s t, step s = .next t →
    (s.noReset → t.payload ≠ s.payload →
      ∃ r g b, s.nextLoads r g b ∧ t.payload = { green := g, red := r, blue := b, written := true }) ∧
    (¬ s.noReset → t.payload.written = false)

/-! ### The symbol ROM -/

/-- R63, R64 and R65: the three symbols, spelled on the conversion of R62. -/
def Obligations.RomHoldsTheThreeSymbols : Prop :=
  ∀ c : Cfg,
    let t := fun ns : CfgWord => (2 * (ns.toNat * c.tickHz.toNat) + 1000000000) / 2000000000
    rom c .zero = { lvl0 := true, dur0 := t c.t0hNs, lvl1 := false, dur1 := t c.t0lNs } ∧
    rom c .one = { lvl0 := true, dur0 := t c.t1hNs, lvl1 := false, dur1 := t c.t1lNs } ∧
    rom c .reset = { lvl0 := false, dur0 := t c.rstNs - t c.rstNs / 2, lvl1 := false, dur1 := t c.rstNs / 2 } ∧
    (rom c .reset).dur0 + (rom c .reset).dur1 = t c.rstNs

/-- The conversion of R62 is off by at most half a tick (R69), for every tick frequency but 0. -/
def Obligations.ConversionIsWithinHalfATick : Prop :=
  ∀ (c : Cfg) (ns : CfgWord), c.tickHz ≠ 0 →
    |(ticks c.tickHz ns : Rat) * c.tickNs - (ns.toNat : Rat)| ≤ c.tickNs / 2

/-- The packed words of the ROM at the reset configuration (R55). -/
def Obligations.RomWordsAtReset : Prop :=
  (rom Cfg.reset .zero).pack = 0x000E8007#32 ∧ (rom Cfg.reset .one).pack = 0x000C8010#32 ∧
  (rom Cfg.reset .reset).pack = 0x01F401F4#32

/-- The packed symbol word (R54, a layout the spec marks as general knowledge): where the fields of a legal symbol stand, and
packing and unpacking undo each other. -/
def Obligations.SymbolWordLayout : Prop :=
  (∀ x : Symbol, x.fits = true →
    x.pack.toNat = x.dur0 + 2 ^ 15 * x.lvl0.toNat + 2 ^ 16 * x.dur1 + 2 ^ 31 * x.lvl1.toNat ∧ Symbol.unpack x.pack = x) ∧
  (∀ v : SymWord, (Symbol.unpack v).pack = v)

/-! ### PULL -/

/-- R75: the stall arm. -/
def Obligations.PullStallsBelowEightSlots : Prop :=
  ∀ (s : State) (w f : CountWord), s.takesCommands → s.payload.written = true → w.toNat % 8 = 0 → w.toNat / 8 ≤ 3 →
    f.toNat ≤ s.par.cap → f.toNat < 8 →
    exec (.pull w f false) s = .next { s with rsp := some { status := none, count := 0, doneOut := false, syms := [] } }

/-- R76: the data arm maps exactly the byte at `W div 8`, most significant bit first. -/
def Obligations.PullSendsOneByte : Prop :=
  ∀ (s : State) (w f : CountWord) (byte : Byte), s.takesCommands → w.toNat % 8 = 0 → w.toNat / 8 < 3 →
    memReadP s.payload (w.toNat / 8) = some byte → 8 ≤ f.toNat → f.toNat ≤ s.par.cap →
    exec (.pull w f false) s =
      .next { s with rsp := some { status := none, count := 8, doneOut := false,
                                   syms := (List.range 8).map fun k =>
                                     rom s.cfg (if byte.getLsbD (7 - k) then .one else .zero) } }

/-- R77: the terminate arm, at `W = 24`. -/
def Obligations.PullEmitsTheResetSymbol : Prop :=
  ∀ (s : State) (f : CountWord), s.takesCommands → s.payload.written = true → 8 ≤ f.toNat → f.toNat ≤ s.par.cap →
    exec (.pull 24 f false) s =
      .next { s with rsp := some { status := none, count := 1, doneOut := true, syms := [rom s.cfg .reset] } }

/-- The contract checks of `PULL` in their order (R74, R103), all before the stall test. -/
def Obligations.PullFaultPriority : Prop :=
  ∀ (s : State) (w f : CountWord) (d : Bool), s.takesCommands →
    let raises := fun c => exec (.pull w f d) s =
      .next { s with fault := some c, faultCmd := encode (.pull w f d),
                     rsp := some { status := some c, count := 0, doneOut := false, syms := [] } }
    (s.payload.written = false → raises .noPayload) ∧
    (s.payload.written = true → d = true → raises .afterDone) ∧
    (s.payload.written = true → d = false → (w.toNat % 8 ≠ 0 ∨ w.toNat / 8 > 3) → raises .cursor) ∧
    (s.payload.written = true → d = false → w.toNat % 8 = 0 → w.toNat / 8 ≤ 3 → f.toNat > s.par.cap → raises .capacity)

/-- No command hands out part of a byte: a response carries 0, 1 or 8 symbols, as many as it counts, and only the terminate arm
sets the completion flag (R19, R25, R36). -/
def Obligations.ResponsesAreWholeBytes : Prop :=
  ∀ i s t, exec i s = .next t →
    ∃ r, t.rsp = some r ∧ r.count = r.syms.length ∧ (r.count = 0 ∨ r.count = 1 ∨ r.count = 8) ∧
      ((∀ w f d, i ≠ .pull w f d) → r.count = 0) ∧
      (r.doneOut = true → r.status = none ∧ r.syms = [rom s.cfg .reset] ∧ ∃ f, i = .pull 24 f false ∧ 8 ≤ f.toNat)

/-- The response of a `PULL` is a function of the payload, the configuration, its operands and the parameter `CAP` (R26), and
issuing it again gives it again (R78). -/
def Obligations.PullHasNoHiddenInput : Prop :=
  ∀ w f d (s u : State),
    (s.takesCommands → u.takesCommands → s.payload = u.payload → s.cfg = u.cfg → s.par.cap = u.par.cap →
      ∃ t v, exec (.pull w f d) s = .next t ∧ exec (.pull w f d) u = .next v ∧ t.rsp = v.rsp ∧ t.fault = v.fault) ∧
    (∀ t, exec (.pull w f d) s = .next t → t.fault = none → exec (.pull w f d) t = .next t)

/-- Where no check fires, `PULL` returns what the source's algorithm computes (R80). -/
def Obligations.PullAgreesWithEncodeRaw : Prop :=
  ∀ (s t : State) (w f : CountWord) (d : Bool), exec (.pull w f d) s = .next t → t.fault = none →
    ∃ r, t.rsp = some r ∧ r.status = none ∧
      (r.count, r.syms, r.doneOut) = encodeRaw s.cfg [s.payload.green, s.payload.red, s.payload.blue] w.toNat f.toNat d

/-- The frame law (R81), for every list of free counts HOST may pass: the calls that offer at least 8 slots emit the frame one
piece each, the fourth of them ends it, and ENC is left as it was. -/
def Obligations.FourOffersSendTheFrame : Prop :=
  ∀ (s : State) (frees : List CountWord), s.takesCommands → s.payload.written = true →
    (∀ f ∈ frees, f.toNat ≤ s.par.cap) →
    let n := offers frees
    let sent := if 4 ≤ n then 25 else 8 * n
    ∃ t, (Thread.start s).run frees = some t ∧ t.w = sent ∧ t.done = decide (4 ≤ n) ∧
      t.sent = (frame s.cfg [s.payload.green, s.payload.red, s.payload.blue]).take sent ∧
      t.sent.length = sent ∧ t.enc = { s with rsp := t.enc.rsp }

/-! ### Faults and frames of ENC -/

/-- R104: a fault writes `FAULT`, `FAULT_CMD` (the very word) and the response, and nothing else. On ENC's port that is all of the
state; by whatever step a fault comes, HOST's own included, it is all of ENC (what HOST and PG then are: FaultsEndHostsRun). -/
def Obligations.FaultsArePrecise : Prop :=
  (∀ s cmd rest t c, s.takesCommands → s.inbox = .port cmd :: rest → step s = .next t → t.fault = some c →
    t = { s with inbox := rest, fault := some c, faultCmd := cmd,
                 rsp := some { status := some c, count := 0, doneOut := false, syms := [] } }) ∧
  (∀ s t c, s.takesCommands → step s = .next t → t.fault = some c →
    t.cfg = s.cfg ∧ t.cfgLock = s.cfgLock ∧ t.payload = s.payload ∧
    t.rsp = some { status := some c, count := 0, doneOut := false, syms := [] } ∧
    ∃ rest, s.inbox = .port t.faultCmd :: rest ∨ s.inbox = .issue t.faultCmd :: rest ∨
      (∃ f, s.inbox = .pull f :: rest ∧ t.faultCmd = encode (.pull (BitVec.ofNat 16 s.w) f false)) ∨
      ∃ r g b, s.inbox = .setColor r g b false :: rest ∧ t.faultCmd = encode (.loadc r g b))

/-- R105: once `FAULT` is set no command is taken, nothing but block reset changes it, no `SET_COLOR` returns any more (so no
run ends successfully), and block reset clears it. -/
def Obligations.FaultsAreSticky : Prop :=
  ∀ (s : State) (c : EncFault), s.fault = some c →
    (∀ i, exec i s = .fault .encStuck) ∧
    (∀ cmd rest, s.inbox = .port cmd :: rest ∨ s.inbox = .issue cmd :: rest → step s = .fault .encStuck) ∧
    (∀ t, s.noReset → step s = .next t → t.fault = s.fault ∧ t.faultCmd = s.faultCmd ∧ t.ret = s.ret) ∧
    (∀ t, ¬ s.noReset → step s = .next t → t.fault = none)

/-- What each command leaves unchanged when it answers a next state: `PULL` writes no state of ENC's at all unless it faults,
`LOADC` no register of `CFG`, `CFGW` neither the lock nor the payload (so that every payload read reads as before), and none
of them anything of HOST's, PG's, the power line, the parameters or the events to come. -/
def Obligations.CommandFrame : Prop :=
  (∀ w f d s t, exec (.pull w f d) s = .next t →
    t = { s with rsp := t.rsp, fault := t.fault, faultCmd := t.faultCmd } ∧
    (∀ i, memReadP t.payload i = memReadP s.payload i) ∧ (t.fault = none → t.faultCmd = s.faultCmd)) ∧
  (∀ r g b s t, exec (.loadc r g b) s = .next t →
    t = { s with rsp := t.rsp, fault := t.fault, faultCmd := t.faultCmd, payload := t.payload, cfgLock := t.cfgLock } ∧
    (t.fault = none → t.faultCmd = s.faultCmd) ∧ (t.fault ≠ none → t.payload = s.payload ∧ t.cfgLock = s.cfgLock)) ∧
  (∀ idx v s t, exec (.cfgw idx v) s = .next t →
    t = { s with rsp := t.rsp, fault := t.fault, faultCmd := t.faultCmd, cfg := t.cfg } ∧
    (∀ i, memReadP t.payload i = memReadP s.payload i) ∧
    (t.fault = none → t.faultCmd = s.faultCmd) ∧ (t.fault ≠ none → t.cfg = s.cfg))

/-- Whatever is not a command or a block reset leaves ENC alone: ticks, the wait for the drain, the boot, the power line. -/
def Obligations.OnlyCommandsChangeEnc : Prop :=
  ∀ s t, step s = .next t →
    (s.inbox = [] ∨ ∃ e rest, s.inbox = e :: rest ∧
      (e = .tick ∨ (∃ d, e = .drain d) ∨ (∃ o, e = .acquireGpio o) ∨ (∃ o, e = .configureChannel o) ∨
        (∃ p o, e = .power p o) ∨ ∃ h a b c d r, e = .cfgTiming h a b c d r)) →
    t.cfg = s.cfg ∧ t.cfgLock = s.cfgLock ∧ t.payload = s.payload ∧ t.fault = s.fault ∧ t.faultCmd = s.faultCmd ∧
    t.rsp = s.rsp

/-- The numbers of the fault codes (R99) and of HOST's violation codes (R100). -/
def Obligations.FaultCodeNumbers : Prop :=
  faultCode none = 0 ∧ EncFault.illegalCmd.code = 1 ∧ EncFault.cfgLocked.code = 2 ∧ EncFault.cfgInvalid.code = 3 ∧
  EncFault.noPayload.code = 4 ∧ EncFault.afterDone.code = 5 ∧ EncFault.cursor.code = 6 ∧ EncFault.capacity.code = 7 ∧
  HostFault.overlap.code = 0x10 ∧ HostFault.order.code = 0x11 ∧ HostFault.afterDone.code = 0x12 ∧
  HostFault.freeOverstated.code = 0x13

/-! ### The pulse generator and the line -/

/-- R84: a symbol is `lvl0` for `dur0` ticks and then `lvl1` for `dur1` ticks, in all `dur0 + dur1` ticks: the head of `RING` from
the tick in which PG begins it, and a symbol in play for the ticks that are left of it. -/
def Obligations.SymbolIsPlayedPartByPart : Prop :=
  (∀ (s : State) (x : Symbol) (rest : List Symbol), s.en = true → s.play = .idle → s.ring = x :: rest →
    lineTrace (x.dur0 + x.dur1) s = List.replicate x.dur0 x.lvl0 ++ List.replicate x.dur1 x.lvl1) ∧
  (∀ (s : State) (x : Symbol) (e : Nat), s.en = true → s.play = .playing x e →
    lineTrace (x.dur0 + x.dur1 - e) s = (List.replicate x.dur0 x.lvl0 ++ List.replicate x.dur1 x.lvl1).drop e)

/-- PG drops no symbol (R85, R89): whatever a step that is no block reset does, disabling among it, every queued symbol stays in
`RING`, in its place, with at most a response's symbols behind the last; but for the tick in which the head begins, which takes
that one symbol and shows its first level. That the head stays in `RING` until it begins, and that disabling keeps `RING`, is
DEDUCED (assumption logs 14 and 15). -/
def Obligations.NoSymbolIsDropped : Prop :=
  ∀ s t : State, s.noReset → (∀ x ∈ s.ring, 0 < x.total) → step s = .next t →
    t.ring = s.ring ∨ (∃ r, t.rsp = some r ∧ r.status = none ∧ t.ring = s.ring ++ r.syms) ∨
    ∃ x, s.ring = x :: t.ring ∧ s.en = true ∧ t.en = true ∧ t.line = x.levelAt 0 ∧ (t.play = .playing x 1 ∨ x.total = 1)

/-- The symbols in `RING` when PG begins come out in order, back to back, as their waveform (R85, R87), and then the line is
drained. -/
def Obligations.RingIsPlayedBackToBack : Prop :=
  ∀ s : State, s.en = true → s.play = .idle → (∀ x ∈ s.ring, 0 < x.total) →
    let n := (s.ring.map Symbol.total).sum
    lineTrace n s = levels (wave s.ring) ∧ drained (ticksFrom n s) = true

/-- The length of a frame (R87): the sum over its symbols, and at the reset configuration `21*n0 + 28*n1 + 1000` ticks, from
1504 to 1672. -/
def Obligations.FrameLength : Prop :=
  (∀ c payload, (levels (wave (frame c payload))).length = frameTicks c payload) ∧
  (∀ g r b : Byte,
    let bits := [g, r, b].flatMap sentBits
    frameTicks Cfg.reset [g, r, b] = 21 * bits.count false + 28 * bits.count true + 1000 ∧
    1504 ≤ frameTicks Cfg.reset [g, r, b] ∧ frameTicks Cfg.reset [g, r, b] ≤ 1672)

/-- An underrun (R85): PG idles low while `RING` is empty, for at least one tick, and once symbols are there it plays them, after
a finite number of low ticks, whole and back to back, until the line is drained. How many is a free value (assumption log
13). -/
def Obligations.UnderrunIdlesLow : Prop :=
  (∀ s x e, s.en = true → s.play = .playing x e → x.total ≤ e + 1 → s.ring = [] → (tick s).play = .starved false) ∧
  (∀ s g, s.en = true → s.play = .starved g → s.ring = [] → (tick s).line = false ∧ (tick s).play = .starved true) ∧
  (∀ s, s.en = true → s.play = .starved false → (tick s).line = false) ∧
  (∀ s g, s.en = true → s.play = .starved g → s.ring ≠ [] → (∀ x ∈ s.ring, 0 < x.total) →
    let total := (s.ring.map Symbol.total).sum
    ∃ n, (g = false → 0 < n) ∧ lineTrace (n + total) s = List.replicate n false ++ levels (wave s.ring) ∧
      drained (ticksFrom (n + total) s) = true)

/-- While the channel is disabled PG plays nothing and the line is low (R86, R89), and disabling makes it so at once. -/
def Obligations.DisabledLineIsLow : Prop :=
  (∀ s : State, s.en = false → (tick s).line = false ∧ (tick s).ring = s.ring ∧ (tick s).play = s.play) ∧
  (∀ s : State, (disable s).en = false ∧ (disable s).line = false ∧ (disable s).ring = s.ring)

/-- An enabled channel drains in finite time, from every state and whatever the gaps (R90). -/
def Obligations.EnabledRingDrains : Prop :=
  ∀ s : State, s.en = true → ∃ n, drained (ticksFrom n s) = true

/-- A tick is PG's and changes nothing but the line, `RING`, what PG plays, the draw counter and HOST's count of its wait. -/
def Obligations.TickFrame : Prop :=
  ∀ s : State, tick s =
    { s with line := (tick s).line, ring := (tick s).ring, play := (tick s).play, draws := (tick s).draws,
             waited := (tick s).waited }

/-! ### HOST -/

/-- The start of `SET_COLOR` (R91): enabled, active, the payload loaded and the cursor fresh. That this is one step is the
model's own (assumption log 24). -/
def Obligations.SetColorStartsATransmission : Prop :=
  ∀ (s : State) (r g b : Byte) (rest : List Event), s.hostRuns → s.active = false → s.cfg.valid = true →
    s.inbox = .setColor r g b false :: rest →
    step s = .next { s with inbox := rest, active := true, en := true, cfgLock := true,
                            payload := { green := g, red := r, blue := b, written := true },
                            rsp := some { status := none, count := 0, doneOut := false, syms := [] },
                            w := 0, done := false, cursorSet := true, waited := 0, ret := none }

/-- A submit failure (R91, R96): `FAIL`, everything released, and no command has reached ENC. That the cursor and `RING` stay as
they were is the model's own (assumption logs 29 and 15). -/
def Obligations.SubmitFailureReleasesTheChannel : Prop :=
  ∀ (s : State) (r g b : Byte) (rest : List Event), s.hostRuns → s.active = false →
    s.inbox = .setColor r g b true :: rest →
    ∃ t, step s = .next t ∧ t.ret = some .fail ∧ t.en = false ∧ t.active = false ∧ t.line = false ∧
      t = { s with inbox := rest, ret := t.ret, en := t.en, active := t.active, line := t.line, play := t.play,
                   draws := t.draws }

/-- A fault of a command of HOST's (R91, R104, R105): an issued command, a round of the loop and the `LOADC` of `SET_COLOR` leave
HOST and PG as they were, so that the cursor, `RING` and what `SET_COLOR` returned stay and a fault is no `FAIL`; with where each
of them faults. That `EN` and `ACTIVE` are not cleared, and for `SET_COLOR` that they stay set, is the model's own (assumption
log 33), and so is the grain of `SET_COLOR` (assumption log 24). -/
def Obligations.FaultsEndHostsRun : Prop :=
  ∀ (s : State) (rest : List Event), s.hostRuns →
    let faulted := fun (c : EncFault) (cmd : CmdWord) =>
      { s with inbox := rest, fault := some c, faultCmd := cmd,
               rsp := some { status := some c, count := 0, doneOut := false, syms := [] } }
    (∀ cmd t c, s.inbox = .issue cmd :: rest → step s = .next t → t.fault = some c → t = faulted c cmd) ∧
    (∀ f t c, s.inbox = .pull f :: rest → step s = .next t → t.fault = some c →
      t = faulted c (encode (.pull (BitVec.ofNat 16 s.w) f false)) ∧ (s.Inv → t.ret = none)) ∧
    (∀ r g b sf t c, s.inbox = .setColor r g b sf :: rest → step s = .next t → t.fault = some c →
      t = { faulted c (encode (.loadc r g b)) with active := true, en := true, waited := 0, ret := none }) ∧
    (∀ cmd, s.inbox = .issue cmd :: rest → reservedWord cmd → step s = .next (faulted .illegalCmd cmd)) ∧
    (∀ idx v, s.inbox = .issue (encode (.cfgw idx v)) :: rest → idx.toNat ≤ 5 → s.cfgLock = true →
      step s = .next (faulted .cfgLocked (encode (.cfgw idx v)))) ∧
    (∀ r g b, s.inbox = .issue (encode (.loadc r g b)) :: rest → s.active = false → s.cfg.valid = false →
      step s = .next (faulted .cfgInvalid (encode (.loadc r g b)))) ∧
    (∀ f, s.inbox = .pull f :: rest → s.active = true → s.done = false → s.payload.written = true → s.w ∈ [0, 8, 16, 24] →
      s.par.cap < f.toNat → f.toNat ≤ s.par.ringDepth - s.ring.length →
      step s = .next (faulted .capacity (encode (.pull (BitVec.ofNat 16 s.w) f false)))) ∧
    (∀ r g b, s.inbox = .setColor r g b false :: rest → s.active = false → s.cfg.valid = false →
      step s = .next { faulted .cfgInvalid (encode (.loadc r g b)) with active := true, en := true, waited := 0, ret := none })

/-- A command of HOST's that breaches none of its duties (R94) is run by ENC, and HOST does what R91 and R92 say with the response:
a `LOADC` makes a fresh cursor, a `PULL`, in the loop or by itself, appends its symbols and threads the cursor. That HOST's own
`LOADC` outside `SET_COLOR` makes a cursor, and that there is none before the first, is the model's own (assumption log 11). -/
def Obligations.BreachFreeCommandsReachEnc : Prop :=
  ∀ (s : State) (cmd : CmdWord) (rest : List Event), s.hostRuns → s.inbox = .issue cmd :: rest →
    let u := { s with inbox := rest }
    (∀ idx v, decode cmd = .cmd (.cfgw idx v) → ∃ t, exec (.cfgw idx v) u = .next t ∧ step s = .next t) ∧
    (∀ r g b, decode cmd = .cmd (.loadc r g b) → s.active = false → s.cfg.valid = true →
      step s = .next { u with payload := { green := g, red := r, blue := b, written := true }, cfgLock := true,
                              rsp := some { status := none, count := 0, doneOut := false, syms := [] },
                              w := 0, done := false, cursorSet := true }) ∧
    (∀ w f d, decode cmd = .cmd (.pull w f d) → (s.cursorSet = true → w.toNat = s.w ∧ d = s.done) →
      f.toNat ≤ s.par.ringDepth - s.ring.length →
      ∃ t r, exec (.pull w f d) u = .next t ∧ t.rsp = some r ∧
        (r.status ≠ none → step s = .next t) ∧
        (r.status = none → step s = .next { t with ring := s.ring ++ r.syms,
                                                   w := if s.cursorSet then s.w + r.count else s.w,
                                                   done := if s.cursorSet then r.doneOut else s.done }))

/-- HOST's duties (R94): each breach sets its code, ENC does not see the command, and HOST then takes no further step. The
order in which two breaches at once are judged, that R94's breaches come before R117's `AFTER_DONE`, that a breach keeps the
command from ENC, and that it leaves `EN` and `ACTIVE` as they are, are the model's own (assumption logs 9, 10, 11 and 33). -/
def Obligations.BreachesStopHost : Prop :=
  (∀ s cmd rest i, s.hostRuns → s.inbox = .issue cmd :: rest → decode cmd = .cmd i →
    let breach := fun b => step s = .next { s with inbox := rest, hfault := some b }
    (∀ r g b, i = .loadc r g b → s.active = true → breach .overlap) ∧
    (∀ w f, i = .pull w f false → s.cursorSet = true → s.done = true → breach .afterDone) ∧
    (∀ w f d, i = .pull w f d → s.cursorSet = true → ¬(s.done = true ∧ d = false) → (w.toNat ≠ s.w ∨ d ≠ s.done) →
      breach .order) ∧
    (∀ w f d, i = .pull w f d → (s.cursorSet = true → w.toNat = s.w ∧ d = s.done) → s.par.ringDepth - s.ring.length < f.toNat →
      breach .freeOverstated)) ∧
  (∀ s r g b sf rest, s.hostRuns → s.inbox = .setColor r g b sf :: rest → s.active = true →
    step s = .next { s with inbox := rest, hfault := some .overlap }) ∧
  (∀ s b e rest, s.fault = none → s.hfault = some b → s.inbox = e :: rest → e.isHosts → step s = .fault .hostStuck)

/-- One round of HOST's loop that overstates nothing (R91, R92, R18): ENC answers OK, the symbols are appended to `RING`, which
never overflows, and the cursor is threaded. -/
def Obligations.RoundAppendsAndThreads : Prop :=
  ∀ (s : State) (f : CountWord) (rest : List Event), s.Inv → s.hostRuns → s.active = true → s.done = false →
    s.inbox = .pull f :: rest → f.toNat ≤ s.par.ringDepth - s.ring.length → f.toNat ≤ s.par.cap →
    ∃ t r, step s = .next t ∧ t.rsp = some r ∧ r.status = none ∧
      r.count = (if f.toNat < 8 then 0 else if s.w < 24 then 8 else 1) ∧
      t = { s with inbox := rest, rsp := some r, ring := s.ring ++ r.syms, w := s.w + r.count, done := r.doneOut } ∧
      (t.done = true ↔ t.w = 25) ∧ t.ring.length ≤ s.par.ringDepth

/-- Whole-byte granularity (R116): with fewer than 8 free slots no round of the loop moves the cursor or `RING`. For a `free` that
is overstated the round is a breach, and that it moves nothing is the model's own (assumption log 9). -/
def Obligations.FewSlotsStallTheTransmission : Prop :=
  ∀ (s t : State) (f : CountWord) (rest : List Event), s.par.ringDepth - s.ring.length < 8 → s.inbox = .pull f :: rest →
    step s = .next t → t.w = s.w ∧ t.done = s.done ∧ t.ring = s.ring

/-- The end of `SET_COLOR` (R91, R93, R96): a failing drain returns `FAIL`; once the loop is over a drained line returns `OK`, and
otherwise HOST waits on; with a bounded wait, one that has lasted too long returns `FAIL`, and one still in time does as the
unbounded wait, but for its last tick, at which an undrained line is a timeout. How the bound is counted is the model's own
(assumption log 16), and so are that a drain may fail in the loop (assumption log 32) and that `RING` stays as it was
(assumption log 15). -/
def Obligations.DrainEndsTheTransmission : Prop :=
  ∀ (s : State) (d : Bool) (rest : List Event), s.hostRuns → s.active = true → s.inbox = .drain d :: rest →
    let ends := fun ret => ∃ t, step s = .next t ∧
      t = { s with inbox := rest, en := false, active := false, line := false, ret := some ret, play := t.play,
                   draws := t.draws }
    let waitsOn := step s = .next { s with inbox := rest }
    (d = true → ends .fail) ∧
    (d = false → s.done = false → waitsOn) ∧
    (d = false → s.done = true → s.par.drainTimeout = none → drained s = true → ends .ok) ∧
    (d = false → s.done = true → s.par.drainTimeout = none → drained s = false → waitsOn) ∧
    (∀ bound, d = false → s.done = true → s.par.drainTimeout = some bound → s.waited ≤ bound → drained s = true → ends .ok) ∧
    (∀ bound, d = false → s.done = true → s.par.drainTimeout = some bound → s.waited < bound → drained s = false → waitsOn) ∧
    (∀ bound, s.done = true → s.par.drainTimeout = some bound → s.waited = bound → drained s = false → ends .fail) ∧
    (∀ bound, s.done = true → s.par.drainTimeout = some bound → bound < s.waited → ends .fail)

/-- R98: power off and then on leaves the power line high and everything else as it was; a failed write is fatal; and nothing
but the two operations changes the line, block reset (assumption log 6) and boot step 1 (assumption log 31) aside, after which
its level is any value. -/
def Obligations.PowerLineIsIndependent : Prop :=
  (∀ (s : State) (rest : List Event), s.inbox = .power false true :: .power true true :: rest →
    Host.Core.run Sys2Proof.core 2 s = .next { s with inbox := rest, power := true }) ∧
  (∀ (s : State) (on : Bool) (rest : List Event), s.inbox = .power on true :: rest →
    step s = .next { s with inbox := rest, power := on }) ∧
  (∀ s t, s.noReset → step s = .next t → (∀ on ok rest, s.inbox ≠ .power on ok :: rest) →
    (∀ ok rest, s.inbox ≠ .acquireGpio ok :: rest) → t.power = s.power) ∧
  (∀ (s : State) (on : Bool) (rest : List Event), s.inbox = .power on false :: rest → step s = .fault .gpioFailed)

/-- The boot (R113, R101): the two steps in order make HOST run; one that fails leaves no HOST, for good. The phases, and that
step 1 leaves the power line at any level, are the model's own (assumption logs 21 and 31). -/
def Obligations.BootMakesHostRun : Prop :=
  (∀ s rest, s.boot = .off → s.inbox = .acquireGpio true :: .configureChannel true :: rest →
    ∃ power draws, Host.Core.run Sys2Proof.core 2 s =
      .next { s with inbox := rest, boot := .ready, power := power, draws := draws }) ∧
  (∀ s rest, s.boot = .off → s.inbox = .acquireGpio false :: rest →
    ∃ power draws, step s = .next { s with inbox := rest, boot := .failed, power := power, draws := draws }) ∧
  (∀ s rest, s.boot = .gpio → s.inbox = .configureChannel false :: rest →
    step s = .next { s with inbox := rest, boot := .failed }) ∧
  (∀ s t, s.boot = .failed → s.noReset → step s = .next t → t.boot = .failed) ∧
  (∀ s e rest, s.fault = none → s.hfault = none → s.boot ≠ .ready → s.inbox = e :: rest → e.isHosts → step s = .fault .noHost)

/-- `CFG_TIMING` (R61) writes the six registers while the configuration is unlocked; once it is locked the first of the six
commands faults with `CFG_LOCKED`. That the steps follow each other, and that after the fault the other five stay next in line, so
that the machine stops, is the model's own (assumption logs 30 and 34). -/
def Obligations.CfgTimingWritesSixRegisters : Prop :=
  ∀ (s : State) (hz t0h t0l t1h t1l rst : CfgWord) (rest : List Event), s.hostRuns →
    s.inbox = .cfgTiming hz t0h t0l t1h t1l rst :: rest →
    (s.cfgLock = false →
      Host.Core.run Sys2Proof.core 7 s =
        .next { s with inbox := rest, rsp := some { status := none, count := 0, doneOut := false, syms := [] },
                       cfg := { tickHz := hz, t0hNs := t0h, t0lNs := t0l, t1hNs := t1h, t1lNs := t1l, rstNs := rst } }) ∧
    (s.cfgLock = true →
      (∃ left, Host.Core.run Sys2Proof.core 2 s =
        .next { s with inbox := left, fault := some .cfgLocked, faultCmd := encode (.cfgw 0 hz),
                       rsp := some { status := some .cfgLocked, count := 0, doneOut := false, syms := [] } }) ∧
      Host.Core.run Sys2Proof.core 3 s = .fault .encStuck)

/-! ### The invariant and whole transmissions -/

/-- The invariant holds after reset. -/
def Obligations.InvariantAtReset : Prop := State.Inv State.reset

/-- Every step keeps the invariant, from every state that meets it. -/
def Obligations.StepKeepsTheInvariant : Prop := ∀ s t, s.Inv → step s = .next t → t.Inv

/-- `SET_COLOR` (R91) puts exactly the frame into an empty `RING`, green, red, blue and one RESET, for every list of free counts
that overstate neither `CAP` nor the free slots: one piece for each of the first four that offer at least 8 slots. No tick falls
between the rounds here, so that a fourth offer takes a `RING_DEPTH` of 32 or more: 24 symbols are queued before it (R116; ticks
in between: EveryScheduleQueuesTheFrame). That its start is one step is the model's own (assumption log 24). -/
def Obligations.SetColorQueuesTheFrame : Prop :=
  ∀ (s : State) (r g b : Byte) (frees : List CountWord) (rest : List Event), s.hostRuns → s.active = false →
    s.cfg.valid = true → s.ring = [] →
    (∀ k f, frees[k]? = some f → f.toNat ≤ s.par.cap ∧ f.toNat ≤ s.par.ringDepth - sentAfter (frees.take k)) →
    s.inbox = .setColor r g b false :: frees.map .pull ++ rest →
    ∃ t, Host.Core.run Sys2Proof.core (frees.length + 1) s = .next t ∧ t.inbox = rest ∧
      t.ring = (frame s.cfg [g, r, b]).take (sentAfter frees) ∧ t.w = sentAfter frees ∧
      t.done = decide (4 ≤ offers frees) ∧ (4 ≤ offers frees → t.ring = frame s.cfg [g, r, b]) ∧
      t.active = true ∧ t.en = true ∧ t.play = s.play ∧ t.hostRuns ∧ t.ret = none

/-- The same for every schedule of rounds, ticks and looks at the drain (R91, R92): as long as HOST's run goes on, what PG has taken
out of `RING` and what is still in it are together the frame, as far as the offers have got. That the start of `SET_COLOR` is one
step is the model's own (assumption log 24). -/
def Obligations.EveryScheduleQueuesTheFrame : Prop :=
  ∀ (s t : State) (r g b : Byte) (es rest : List Event), s.hostRuns → s.active = false → s.cfg.valid = true → s.ring = [] →
    (∀ e ∈ es, e.keepsGoing) → s.inbox = .setColor r g b false :: es ++ rest →
    Host.Core.run Sys2Proof.core (es.length + 1) s = .next t → t.hostRuns →
    let frees := es.filterMap Event.freeOf
    t.inbox = rest ∧ t.w = sentAfter frees ∧ t.done = decide (4 ≤ offers frees) ∧
      ∃ played, played ++ t.ring = (frame s.cfg [g, r, b]).take (sentAfter frees)

/-- A whole `SET_COLOR` (R91), in the schedule that queues all before it plays: four rounds with `free` = 8 and no tick between them,
for which `RING_DEPTH` is at least 32, queue the frame; in the next `T_frame` ticks the line shows exactly its waveform, and the
drain then ends it with `OK`. The grain of the steps is the model's own (assumption log 24). -/
def Obligations.SetColorRunsToOk : Prop :=
  ∀ (s : State) (r g b : Byte) (rest : List Event), s.Inv → s.hostRuns → s.active = false → s.cfg.valid = true →
    32 ≤ s.par.ringDepth → s.par.drainTimeout = none → s.ring = [] → s.play = .idle →
    let n := frameTicks s.cfg [g, r, b]
    s.inbox = [.setColor r g b false, .pull 8, .pull 8, .pull 8, .pull 8] ++ List.replicate n .tick ++
      .drain false :: rest →
    lineDuring (n + 6) s = levels (wave (frame s.cfg [g, r, b])) ∧
    ∃ t, Host.Core.run Sys2Proof.core (n + 6) s = .next t ∧ t.ret = some .ok ∧ t.active = false ∧ t.en = false ∧
      t.line = false ∧ t.ring = [] ∧ t.w = 25 ∧ t.done = true ∧ t.safe ∧ t.inbox = rest

/-- From every state of a transmission that keeps the invariant, rounds of its loop, ticks and looks at the drain alone can bring
this transmission to `OK`: with `RING_DEPTH` and `CAP` at least 8 and an unbounded wait, nothing but HOST's own choices can keep
it from ending (R90, R95). -/
def Obligations.EveryTransmissionCanEnd : Prop :=
  ∀ s : State, s.Inv → s.hostRuns → s.active = true → 8 ≤ s.par.ringDepth → s.par.drainTimeout = none →
    ∃ (es : List Event) (t : State), (∀ e ∈ es, e.keepsGoing) ∧ Host.Core.run Sys2Proof.core es.length { s with inbox := es } = .next t ∧
      t.ret = some .ok ∧ t.active = false ∧ t.w = 25 ∧ t.safe

/-- What the line has shown when `SET_COLOR` fails (R96): for every beginning of the frame, empty and whole ones included, and
every `RING_DEPTH` of at least 8, a transmission may return `FAIL` after the line has carried exactly that. That the drain may
fail in the loop is the model's own (assumption log 32). -/
def Obligations.FailureMayLeaveAnyPrefix : Prop :=
  ∀ (s : State) (r g b : Byte) (k : Nat), s.Inv → s.hostRuns → s.active = false → s.cfg.valid = true → 8 ≤ s.par.ringDepth →
    s.ring = [] → s.play = .idle → k ≤ 25 →
    ∃ (es : List Event) (t : State), (∀ e ∈ es, e.keepsGoing) ∧
      let u := { s with inbox := .setColor r g b false :: es ++ [.drain true] }
      Host.Core.run Sys2Proof.core (es.length + 2) u = .next t ∧
      lineDuring (es.length + 2) u = levels (wave ((frame s.cfg [g, r, b]).take k)) ∧
      t.ret = some .fail ∧ t.active = false ∧ t.en = false ∧ t.line = false ∧ t.hostRuns
end

