-- ==== Sys2Proof/Laws/State.lean ====
section
/-! SUPPORT. One lemma per field of State for each named update of ENC, true by unfolding, so that no proof unfolds a record
update; and the same for what a block reset leaves. -/

namespace Sys2Proof.Machine

section respond
variable (syms : List Symbol) (d : Bool) (s : State)

@[simp] theorem respond_rsp : (respond syms d s).rsp = some (Response.ok syms d) := rfl
@[simp] theorem respond_cfg : (respond syms d s).cfg = s.cfg := rfl
@[simp] theorem respond_cfgLock : (respond syms d s).cfgLock = s.cfgLock := rfl
@[simp] theorem respond_payload : (respond syms d s).payload = s.payload := rfl
@[simp] theorem respond_fault : (respond syms d s).fault = s.fault := rfl
@[simp] theorem respond_faultCmd : (respond syms d s).faultCmd = s.faultCmd := rfl
@[simp] theorem respond_active : (respond syms d s).active = s.active := rfl
@[simp] theorem respond_cursorSet : (respond syms d s).cursorSet = s.cursorSet := rfl
@[simp] theorem respond_w : (respond syms d s).w = s.w := rfl
@[simp] theorem respond_done : (respond syms d s).done = s.done := rfl
@[simp] theorem respond_hfault : (respond syms d s).hfault = s.hfault := rfl
@[simp] theorem respond_boot : (respond syms d s).boot = s.boot := rfl
@[simp] theorem respond_waited : (respond syms d s).waited = s.waited := rfl
@[simp] theorem respond_ret : (respond syms d s).ret = s.ret := rfl
@[simp] theorem respond_en : (respond syms d s).en = s.en := rfl
@[simp] theorem respond_ring : (respond syms d s).ring = s.ring := rfl
@[simp] theorem respond_line : (respond syms d s).line = s.line := rfl
@[simp] theorem respond_play : (respond syms d s).play = s.play := rfl
@[simp] theorem respond_power : (respond syms d s).power = s.power := rfl
@[simp] theorem respond_par : (respond syms d s).par = s.par := rfl
@[simp] theorem respond_draws : (respond syms d s).draws = s.draws := rfl
@[simp] theorem respond_inbox : (respond syms d s).inbox = s.inbox := rfl

end respond

section raiseFault
variable (c : EncFault) (cmd : CmdWord) (s : State)

@[simp] theorem raiseFault_fault : (raiseFault c cmd s).fault = some c := rfl
@[simp] theorem raiseFault_faultCmd : (raiseFault c cmd s).faultCmd = cmd := rfl
@[simp] theorem raiseFault_rsp : (raiseFault c cmd s).rsp = some (Response.faulted c) := rfl
@[simp] theorem raiseFault_cfg : (raiseFault c cmd s).cfg = s.cfg := rfl
@[simp] theorem raiseFault_cfgLock : (raiseFault c cmd s).cfgLock = s.cfgLock := rfl
@[simp] theorem raiseFault_payload : (raiseFault c cmd s).payload = s.payload := rfl
@[simp] theorem raiseFault_active : (raiseFault c cmd s).active = s.active := rfl
@[simp] theorem raiseFault_cursorSet : (raiseFault c cmd s).cursorSet = s.cursorSet := rfl
@[simp] theorem raiseFault_w : (raiseFault c cmd s).w = s.w := rfl
@[simp] theorem raiseFault_done : (raiseFault c cmd s).done = s.done := rfl
@[simp] theorem raiseFault_hfault : (raiseFault c cmd s).hfault = s.hfault := rfl
@[simp] theorem raiseFault_boot : (raiseFault c cmd s).boot = s.boot := rfl
@[simp] theorem raiseFault_waited : (raiseFault c cmd s).waited = s.waited := rfl
@[simp] theorem raiseFault_ret : (raiseFault c cmd s).ret = s.ret := rfl
@[simp] theorem raiseFault_en : (raiseFault c cmd s).en = s.en := rfl
@[simp] theorem raiseFault_ring : (raiseFault c cmd s).ring = s.ring := rfl
@[simp] theorem raiseFault_line : (raiseFault c cmd s).line = s.line := rfl
@[simp] theorem raiseFault_play : (raiseFault c cmd s).play = s.play := rfl
@[simp] theorem raiseFault_power : (raiseFault c cmd s).power = s.power := rfl
@[simp] theorem raiseFault_par : (raiseFault c cmd s).par = s.par := rfl
@[simp] theorem raiseFault_draws : (raiseFault c cmd s).draws = s.draws := rfl
@[simp] theorem raiseFault_inbox : (raiseFault c cmd s).inbox = s.inbox := rfl

end raiseFault

section blockReset
variable (s : State)

@[simp] theorem blockReset_cfg : (blockReset s).cfg = State.reset.cfg := rfl
@[simp] theorem blockReset_cfgLock : (blockReset s).cfgLock = State.reset.cfgLock := rfl
@[simp] theorem blockReset_payload : (blockReset s).payload = State.reset.payload := rfl
@[simp] theorem blockReset_fault : (blockReset s).fault = State.reset.fault := rfl
@[simp] theorem blockReset_faultCmd : (blockReset s).faultCmd = State.reset.faultCmd := rfl
@[simp] theorem blockReset_rsp : (blockReset s).rsp = State.reset.rsp := rfl
@[simp] theorem blockReset_active : (blockReset s).active = State.reset.active := rfl
@[simp] theorem blockReset_cursorSet : (blockReset s).cursorSet = State.reset.cursorSet := rfl
@[simp] theorem blockReset_w : (blockReset s).w = State.reset.w := rfl
@[simp] theorem blockReset_done : (blockReset s).done = State.reset.done := rfl
@[simp] theorem blockReset_hfault : (blockReset s).hfault = State.reset.hfault := rfl
@[simp] theorem blockReset_boot : (blockReset s).boot = State.reset.boot := rfl
@[simp] theorem blockReset_waited : (blockReset s).waited = State.reset.waited := rfl
@[simp] theorem blockReset_ret : (blockReset s).ret = State.reset.ret := rfl
@[simp] theorem blockReset_en : (blockReset s).en = State.reset.en := rfl
@[simp] theorem blockReset_ring : (blockReset s).ring = State.reset.ring := rfl
@[simp] theorem blockReset_line : (blockReset s).line = State.reset.line := rfl
@[simp] theorem blockReset_play : (blockReset s).play = State.reset.play := rfl
@[simp] theorem blockReset_power : (blockReset s).power = Config.powerAtReset s.draws := rfl
@[simp] theorem blockReset_par : (blockReset s).par = s.par := rfl
@[simp] theorem blockReset_draws : (blockReset s).draws = s.draws + 1 := rfl
@[simp] theorem blockReset_inbox : (blockReset s).inbox = s.inbox := rfl

end blockReset

section response
variable (syms : List Symbol) (d : Bool) (c : EncFault)

@[simp] theorem ok_status : (Response.ok syms d).status = none := rfl
@[simp] theorem ok_count : (Response.ok syms d).count = syms.length := rfl
@[simp] theorem ok_doneOut : (Response.ok syms d).doneOut = d := rfl
@[simp] theorem ok_syms : (Response.ok syms d).syms = syms := rfl
@[simp] theorem faulted_status : (Response.faulted c).status = some c := rfl
@[simp] theorem faulted_count : (Response.faulted c).count = 0 := rfl
@[simp] theorem faulted_doneOut : (Response.faulted c).doneOut = false := rfl
@[simp] theorem faulted_syms : (Response.faulted c).syms = [] := rfl

end response

end Sys2Proof.Machine
end

