-- ==== Sys2Proof/Laws/Decode.lean ====
section
/-! SUPPORT. The decoder and the encoder said on numbers: each field of a word as a quotient and a remainder, each test of the
decoder as a comparison of naturals, and the number each command is encoded as. -/

namespace Sys2Proof

@[simp] theorem field_toNat (cmd : CmdWord) (lo n : Nat) : (field cmd lo n).toNat = cmd.toNat / 2 ^ lo % 2 ^ n := by
  simp [field, BitVec.extractLsb'_toNat, Nat.shiftRight_eq_div_pow]

theorem field_eq_iff (cmd : CmdWord) (lo n : Nat) (v : BitVec n) : field cmd lo n = v ↔ cmd.toNat / 2 ^ lo % 2 ^ n = v.toNat := by
  rw [← field_toNat]; exact BitVec.toNat_inj.symm

theorem getLsbD_eq_decide (cmd : CmdWord) (k : Nat) : cmd.getLsbD k = decide (cmd.toNat / 2 ^ k % 2 = 1) := by
  simp [BitVec.getLsbD, Nat.testBit_eq_decide_div_mod_eq]

/-- The opcode as a number (R45). -/
theorem opField_eq_iff (cmd : CmdWord) (v : BitVec 4) : opField cmd = v ↔ cmd.toNat / 2 ^ 60 = v.toNat := by
  have := cmd.isLt
  rw [opField, field_eq_iff, Nat.mod_eq_of_lt (by omega)]

/-- The decoder, each test said on the word as a number. -/
theorem decode_eq (cmd : CmdWord) : decode cmd =
    if cmd.toNat / 2 ^ 60 = 1 then
      if cmd.toNat / 2 ^ 33 % 2 ^ 27 = 0 then .cmd (.pull (field cmd 16 16) (field cmd 0 16) (cmd.getLsbD 32))
      else .illegal .reservedBits
    else if cmd.toNat / 2 ^ 60 = 2 then
      if cmd.toNat / 2 ^ 24 % 2 ^ 36 = 0 then .cmd (.loadc (field cmd 16 8) (field cmd 8 8) (field cmd 0 8))
      else .illegal .reservedBits
    else if cmd.toNat / 2 ^ 60 = 3 then
      if cmd.toNat / 2 ^ 36 % 2 ^ 24 = 0 then
        if cmd.toNat / 2 ^ 32 % 2 ^ 4 ≤ 5 then .cmd (.cfgw (field cmd 32 4) (field cmd 0 32))
        else .illegal .reservedIndex
      else .illegal .reservedBits
    else .illegal .reservedOp := by
  have e (lo n) : field cmd lo n = 0 ↔ cmd.toNat / 2 ^ lo % 2 ^ n = 0 := by
    rw [field_eq_iff]; simp
  have o (v : BitVec 4) := opField_eq_iff cmd v
  simp only [decode, decodePull, decodeLoadc, decodeCfgw, o, ne_eq, e, ite_not, field_toNat, gt_iff_lt, ← not_le]
  rfl

/-! ### The number of a command's word -/

theorem encode_pull_toNat (w f : CountWord) (d : Bool) :
    (encode (.pull w f d)).toNat = 2 ^ 60 + 2 ^ 32 * d.toNat + 2 ^ 16 * w.toNat + f.toNat := by
  have h1 := w.isLt
  have h2 := f.isLt
  simp only [encode, BitVec.toNat_append, Nat.shiftLeft_eq, BitVec.toNat_ofNat, BitVec.toNat_ofBool]
  rw [Nat.mul_comm _ (2 ^ 16), Nat.mul_comm _ (2 ^ 16), ← Nat.two_pow_add_eq_or_of_lt h2, ← Nat.two_pow_add_eq_or_of_lt h1]
  cases d <;> simp <;> omega

theorem encode_loadc_toNat (r g b : Byte) :
    (encode (.loadc r g b)).toNat = 2 * 2 ^ 60 + 2 ^ 16 * r.toNat + 2 ^ 8 * g.toNat + b.toNat := by
  have h1 := r.isLt
  have h2 := g.isLt
  have h3 := b.isLt
  simp only [encode, BitVec.toNat_append, Nat.shiftLeft_eq, BitVec.toNat_ofNat]
  rw [Nat.mul_comm _ (2 ^ 8), Nat.mul_comm _ (2 ^ 8), Nat.mul_comm _ (2 ^ 8), ← Nat.two_pow_add_eq_or_of_lt h3,
    ← Nat.two_pow_add_eq_or_of_lt h2, ← Nat.two_pow_add_eq_or_of_lt h1]
  simp
  omega

theorem encode_cfgw_toNat (idx : BitVec 4) (v : CfgWord) :
    (encode (.cfgw idx v)).toNat = 3 * 2 ^ 60 + 2 ^ 32 * idx.toNat + v.toNat := by
  have h1 := idx.isLt
  have h2 := v.isLt
  simp only [encode, BitVec.toNat_append, Nat.shiftLeft_eq, BitVec.toNat_ofNat]
  rw [Nat.mul_comm _ (2 ^ 32), Nat.mul_comm _ (2 ^ 4), ← Nat.two_pow_add_eq_or_of_lt h2, ← Nat.two_pow_add_eq_or_of_lt h1]
  simp
  omega

end Sys2Proof
end

