-- ==== Sys2Proof/Laws/Ops.lean ====
section
/-! SUPPORT. What each shared operation of ENC can do, said once: the command wrapper, the configuration registers, the
payload space and the arms of `PULL`. -/

namespace Sys2Proof.Machine

/-- All that a command which answers a next state can have done: ENC was not stuck, and its rule raised or returned. -/
theorem command_next {cmd : CmdWord} {s t : State} {r : Except EncFault State} (h : command cmd s r = .next t) :
    s.fault = none ∧ ((∃ c, r = .error c ∧ t = raiseFault c cmd s) ∨ r = .ok t) := by
  unfold command at h
  split at h
  · cases h
  · next hf =>
    refine ⟨hf, ?_⟩
    split at h
    · cases h; exact .inl ⟨_, rfl, rfl⟩
    · cases h; exact .inr rfl

theorem command_ok {cmd : CmdWord} {s t : State} (hf : s.fault = none) : command cmd s (.ok t) = .next t := by
  simp [command, hf]

theorem command_error {cmd : CmdWord} {s : State} {c : EncFault} (hf : s.fault = none) :
    command cmd s (.error c) = .next (raiseFault c cmd s) := by
  simp [command, hf]

theorem command_stuck {cmd : CmdWord} {s : State} {r : Except EncFault State} {c : EncFault} (hf : s.fault = some c) :
    command cmd s r = .fault .encStuck := by
  simp [command, hf]

/-! ### Configuration registers -/

theorem CfgReg.ofIndex_index (r : CfgReg) : CfgReg.ofIndex r.index = some r := by cases r <;> rfl

theorem CfgReg.ofIndex_isSome : ∀ idx : BitVec 4, (CfgReg.ofIndex idx).isSome = decide (idx.toNat ≤ 5) := by decide

theorem CfgReg.index_of_ofIndex : ∀ (idx : BitVec 4) (r : CfgReg), CfgReg.ofIndex idx = some r → r.index = idx := by
  intro idx r h
  revert idx
  cases r <;> decide

@[simp] theorem Cfg.get_set_same (c : Cfg) (r : CfgReg) (v : CfgWord) : (c.set r v).get r = v := by cases r <;> rfl

theorem Cfg.get_set_other (c : Cfg) {r q : CfgReg} (v : CfgWord) (h : q ≠ r) : (c.set r v).get q = c.get q := by
  cases r <;> cases q <;> first | rfl | exact absurd rfl h

/-! ### The payload space -/

theorem memReadP_written {p : Payload} (h : p.written = true) (i : Nat) : memReadP p i = p.bytes[i]? := by
  simp only [memReadP, h, if_true]
  match i with
  | 0 => rfl
  | 1 => rfl
  | 2 => rfl
  | n + 3 => simp [Payload.byte?, Payload.bytes]

theorem memReadP_unwritten {p : Payload} (h : p.written = false) (i : Nat) : memReadP p i = none := by
  simp [memReadP, h]

@[simp] theorem Payload.load_bytes (r g b : Byte) : (Payload.load r g b).bytes = [g, r, b] := rfl
@[simp] theorem Payload.load_written (r g b : Byte) : (Payload.load r g b).written = true := rfl

/-! ### The meanings -/

/-- All that a `CFGW` rule can come to (R71). -/
theorem cfgw_cases (idx : BitVec 4) (v : CfgWord) (s : State) :
    (CfgReg.ofIndex idx = none ∧ cfgw idx v s = .error .illegalCmd) ∨
    (∃ r, CfgReg.ofIndex idx = some r ∧ s.cfgLock = true ∧ cfgw idx v s = .error .cfgLocked) ∨
    (∃ r, CfgReg.ofIndex idx = some r ∧ s.cfgLock = false ∧
      cfgw idx v s = .ok (respond [] false { s with cfg := s.cfg.set r v })) := by
  unfold cfgw
  cases h : CfgReg.ofIndex idx with
  | none => exact .inl ⟨rfl, rfl⟩
  | some r =>
    cases hl : s.cfgLock
    · exact .inr (.inr ⟨r, rfl, rfl, by simp⟩)
    · exact .inr (.inl ⟨r, rfl, rfl, by simp⟩)

/-- All that a `LOADC` rule can come to (R72). -/
theorem loadc_cases (r g b : Byte) (s : State) :
    (s.cfg.valid = true ∧
      loadc r g b s = .ok (respond [] false { s with payload := Payload.load r g b, cfgLock := true })) ∨
    (s.cfg.valid = false ∧ loadc r g b s = .error .cfgInvalid) := by
  unfold loadc
  cases s.cfg.valid <;> simp

/-- All that a `PULL` rule can come to (R74): the first failing check, or one of the arms. -/
theorem pull_cases (w f : CountWord) (d : Bool) (s : State) :
    (∃ c, pullCheck s.par.cap s.payload w.toNat f.toNat d = some c ∧ pull w f d s = .error c) ∨
    (pullCheck s.par.cap s.payload w.toNat f.toNat d = none ∧
      pull w f d s = .ok (respond (pullSlots s.cfg s.payload w.toNat (pullArm w.toNat f.toNat))
        (doneOut (pullArm w.toNat f.toNat) d) s)) := by
  unfold pull zext
  cases h : pullCheck s.par.cap s.payload w.toNat f.toNat d with
  | some c => exact .inl ⟨c, rfl, rfl⟩
  | none => exact .inr ⟨rfl, rfl⟩

/-- What a `PULL` that passes the checks may rely on. -/
theorem pullCheck_none {cap : Nat} {p : Payload} {w f : Nat} {d : Bool} (h : pullCheck cap p w f d = none) :
    p.written = true ∧ d = false ∧ w % 8 = 0 ∧ w / 8 ≤ 3 ∧ f ≤ cap := by
  unfold pullCheck at h
  split at h
  · cases h
  · split at h
    · cases h
    · split at h
      · cases h
      · split at h
        · cases h
        · simp_all [Config.plen]

theorem dataSlots_eq (c : Cfg) (byte : Byte) : dataSlots c byte = byteSymbols c byte := rfl

@[simp] theorem byteSymbols_length (c : Cfg) (byte : Byte) : (byteSymbols c byte).length = 8 := rfl

end Sys2Proof.Machine
end

