-- ==== Sys2Proof/Laws/SymbolRom.lean ====
section
/-! SUPPORT. The checks on durations as propositions, and that a valid configuration derives legal symbols only. -/

namespace Sys2Proof.Machine

theorem durFits_iff (d : Nat) : durFits d = true ↔ 1 ≤ d ∧ d ≤ 32767 := by
  simp only [durFits, Bool.and_eq_true, decide_eq_true_iff]
  exact Iff.rfl

theorem fits_iff (x : Symbol) : x.fits = true ↔ (1 ≤ x.dur0 ∧ x.dur0 ≤ 32767) ∧ 1 ≤ x.dur1 ∧ x.dur1 ≤ 32767 := by
  simp [Symbol.fits, durFits_iff]

theorem fits_total_pos {x : Symbol} (h : x.fits = true) : 0 < x.total := by
  have := (fits_iff x).1 h
  unfold Symbol.total
  omega

theorem ticks_eq (hz ns : CfgWord) : ticks hz ns = (2 * (ns.toNat * hz.toNat) + 1000000000) / 2000000000 := by
  simp only [ticks, roundHalfUp, Nat.add_comm]

/-- R68's check as a proposition. -/
theorem valid_iff (c : Cfg) : c.valid = true ↔
    (1 ≤ ticks c.tickHz c.t0hNs ∧ ticks c.tickHz c.t0hNs ≤ 32767) ∧ (1 ≤ ticks c.tickHz c.t0lNs ∧ ticks c.tickHz c.t0lNs ≤ 32767) ∧
    (1 ≤ ticks c.tickHz c.t1hNs ∧ ticks c.tickHz c.t1hNs ≤ 32767) ∧ (1 ≤ ticks c.tickHz c.t1lNs ∧ ticks c.tickHz c.t1lNs ≤ 32767) ∧
    1 ≤ c.resetTicks / 2 ∧ c.resetTicks - c.resetTicks / 2 ≤ 32767 := by
  simp only [Cfg.valid, Bool.and_eq_true, durFits_iff, decide_eq_true_iff, and_assoc]
  exact Iff.rfl

/-- Every symbol of a valid configuration is legal (R68). -/
theorem valid_rom_fits {c : Cfg} (h : c.valid = true) (k : RomIndex) : (rom c k).fits = true := by
  obtain ⟨h1, h2, h3, h4, h5, h6⟩ := (valid_iff c).1 h
  rw [fits_iff]
  cases k
  · exact ⟨h1, h2⟩
  · exact ⟨h3, h4⟩
  · simp only [rom]
    omega

theorem byteSymbols_fit {c : Cfg} (h : c.valid = true) (byte : Byte) : ∀ x ∈ byteSymbols c byte, x.fits = true := by
  intro x hx
  obtain ⟨i, -, rfl⟩ := List.mem_map.1 hx
  exact valid_rom_fits h _

end Sys2Proof.Machine
end

