-- ==== Sys2Proof/Laws/Encoder.lean ====
section
/-! SUPPORT. The arms of `PULL` and the one inversion of `exec`: all that a command which answers a next state can have done. -/

namespace Sys2Proof.Machine

/-- The checks pass under their own negations (R74). -/
theorem pullCheck_pass {cap : Nat} {p : Payload} {w f : Nat} (hp : p.written = true) (hw : w % 8 = 0) (hw3 : w / 8 ≤ 3)
    (hf : f ≤ cap) : pullCheck cap p w f false = none := by
  simp [pullCheck, hp, hw, Config.plen, not_lt.2 hf, not_lt.2 hw3]

/-- The arm of a cursor that passed the checks (R74). -/
theorem pullArm_cases {w : Nat} (f : Nat) (hw : w % 8 = 0) (hw3 : w / 8 ≤ 3) :
    (pullArm w f = .stall ∧ f < 8) ∨ (pullArm w f = .data ∧ 8 ≤ f ∧ w < 24) ∨ (pullArm w f = .terminate ∧ 8 ≤ f ∧ w = 24) := by
  unfold pullArm byteIndex Config.minChunk Config.plen
  split_ifs <;> simp <;> omega

/-- The data arm's read is defined (R30): the checks come before it. -/
theorem pullArm_data_read {cap : Nat} {p : Payload} {w f : Nat} {d : Bool} (h : pullCheck cap p w f d = none)
    (ha : pullArm w f = .data) : ∃ b, memReadP p (byteIndex w) = some b := by
  unfold pullArm at ha
  split at ha
  · cases ha
  · split at ha
    · next hlt =>
      rw [memReadP_written (pullCheck_none h).1]
      have : byteIndex w < p.bytes.length := hlt
      exact ⟨_, List.getElem?_eq_getElem this⟩
    · cases ha

theorem pullSlots_stall (c : Cfg) (p : Payload) (w : Nat) : pullSlots c p w .stall = [] := rfl
theorem pullSlots_terminate (c : Cfg) (p : Payload) (w : Nat) : pullSlots c p w .terminate = [rom c .reset] := rfl
theorem pullSlots_data {c : Cfg} {p : Payload} {w : Nat} {b : Byte} (h : memReadP p (byteIndex w) = some b) :
    pullSlots c p w .data = byteSymbols c b := by
  simp [pullSlots, h, dataSlots_eq]

/-- Every slot of a valid configuration holds a legal symbol. -/
theorem pullSlots_fit {c : Cfg} (hc : c.valid = true) (p : Payload) (w : Nat) (a : Arm) :
    ∀ x ∈ pullSlots c p w a, x.fits = true := by
  cases a with
  | stall => simp [pullSlots]
  | data =>
    cases h : memReadP p (byteIndex w) with
    | some b => rw [pullSlots_data h]; exact byteSymbols_fit hc b
    | none => simp [pullSlots, h]
  | terminate =>
    rw [pullSlots_terminate]
    simpa using valid_rom_fits hc .reset

/-- All that a command can have done when it answers a next state: it raised a fault, or it ran the effect of its rule. -/
theorem exec_next_cases {i : Instr} {s t : State} (h : exec i s = .next t) : s.fault = none ∧
    ((∃ c, t = raiseFault c (encode i) s) ∨
     (∃ idx v r, i = .cfgw idx v ∧ s.cfgLock = false ∧ t = respond [] false { s with cfg := s.cfg.set r v }) ∨
     (∃ r g b, i = .loadc r g b ∧ s.cfg.valid = true ∧
       t = respond [] false { s with payload := Payload.load r g b, cfgLock := true }) ∨
     (∃ w f, i = .pull w f false ∧ pullCheck s.par.cap s.payload w.toNat f.toNat false = none ∧
       t = respond (pullSlots s.cfg s.payload w.toNat (pullArm w.toNat f.toNat))
         (doneOut (pullArm w.toNat f.toNat) false) s)) := by
  cases i with
  | pull w f d =>
    obtain ⟨h1, ⟨c, -, e⟩ | e⟩ := command_next h
    · exact ⟨h1, .inl ⟨c, e⟩⟩
    · obtain ⟨c, -, h2⟩ | ⟨hc, h2⟩ := pull_cases w f d s <;> rw [h2] at e <;> cases e
      obtain rfl := (pullCheck_none hc).2.1
      exact ⟨h1, .inr (.inr (.inr ⟨w, f, rfl, hc, rfl⟩))⟩
  | loadc r g b =>
    obtain ⟨h1, ⟨c, -, e⟩ | e⟩ := command_next h
    · exact ⟨h1, .inl ⟨c, e⟩⟩
    · obtain ⟨hv, h2⟩ | ⟨-, h2⟩ := loadc_cases r g b s <;> rw [h2] at e <;> cases e
      exact ⟨h1, .inr (.inr (.inl ⟨r, g, b, rfl, hv, rfl⟩))⟩
  | cfgw idx v =>
    obtain ⟨h1, ⟨c, -, e⟩ | e⟩ := command_next h
    · exact ⟨h1, .inl ⟨c, e⟩⟩
    · obtain ⟨-, h2⟩ | ⟨r, -, -, h2⟩ | ⟨r, -, hl, h2⟩ := cfgw_cases idx v s <;> rw [h2] at e <;> cases e
      exact ⟨h1, .inr (.inl ⟨idx, v, r, rfl, hl, rfl⟩)⟩

/-- A `PULL` whose checks pass completes. -/
theorem exec_pull_pass {s : State} {w f : CountWord} (hs : s.fault = none)
    (h : pullCheck s.par.cap s.payload w.toNat f.toNat false = none) :
    exec (.pull w f false) s = .next (respond (pullSlots s.cfg s.payload w.toNat (pullArm w.toNat f.toNat))
      (doneOut (pullArm w.toNat f.toNat) false) s) := by
  obtain ⟨c, h1, -⟩ | ⟨-, h2⟩ := pull_cases w f false s
  · rw [h] at h1; cases h1
  · simp only [exec, execPull, h2]; exact command_ok hs

/-- A stuck ENC takes no command (R105). -/
theorem exec_stuck (i : Instr) {s : State} {c : EncFault} (h : s.fault = some c) : exec i s = .fault .encStuck := by
  cases i <;> exact command_stuck h

end Sys2Proof.Machine
end

