-- ==== Sys2Proof/Laws/Serializer.lean ====
section
/-! SUPPORT. What PG and HOST's own operations can do, said once: taking a symbol from `RING`, one tick, disabling. -/

namespace Sys2Proof.Machine

/-- `takeHead` skips symbols of no ticks and never reorders: what it leaves is the rest of the queue. -/
theorem takeHead_some {ring rest : List Symbol} {h : Symbol} (e : takeHead ring = some (h, rest)) :
    ∃ skipped, ring = skipped ++ h :: rest ∧ (∀ x ∈ skipped, x.total = 0) ∧ 0 < h.total := by
  induction ring with
  | nil => cases e
  | cons x xs ih =>
    simp only [takeHead] at e
    split at e
    · next hx =>
      obtain ⟨sk, h1, h2, h3⟩ := ih e
      exact ⟨x :: sk, by simp [h1], by simpa [hx] using h2, h3⟩
    · next hx =>
      cases e
      exact ⟨[], rfl, by simp, Nat.pos_of_ne_zero hx⟩

theorem takeHead_pos {h : Symbol} {t : List Symbol} (hp : 0 < h.total) : takeHead (h :: t) = some (h, t) := by
  simp [takeHead, Nat.pos_iff_ne_zero.mp hp]

/-- A tick of a symbol in play takes nothing from `RING`, not even the symbol's last tick (R85: the next symbol waits there until
it begins). -/
@[simp] theorem playTick_ring (x : Symbol) (e : Nat) (s : State) : (playTick x e s).ring = s.ring := by
  unfold playTick
  split <;> rfl

/-- Disabling takes nothing from `RING` (R85). -/
@[simp] theorem disable_ring (s : State) : (disable s).ring = s.ring := by
  unfold disable
  split <;> rfl

/-- A tick of a symbol in play touches PG's line and play state only. -/
theorem playTick_frame (x : Symbol) (e : Nat) (s : State) :
    playTick x e s = { s with line := (playTick x e s).line, play := (playTick x e s).play } := by
  unfold playTick
  split <;> rfl

theorem startTick_frame (s : State) :
    startTick s = { s with line := (startTick s).line, ring := (startTick s).ring, play := (startTick s).play } := by
  unfold startTick
  split
  · next h t _ => rw [playTick_frame]
  · rfl

theorem gapTick_frame (n : Nat) (s : State) :
    gapTick n s = { s with line := (gapTick n s).line, ring := (gapTick n s).ring, play := (gapTick n s).play } := by
  cases n with
  | zero => exact startTick_frame s
  | succ n => rfl

/-- One tick of PG touches PG's own fields and the draw counter only. -/
theorem pgTick_frame (s : State) :
    pgTick s = { s with line := (pgTick s).line, ring := (pgTick s).ring, play := (pgTick s).play, draws := (pgTick s).draws } := by
  unfold pgTick
  split
  · split
    · rw [startTick_frame]
    · rw [playTick_frame]
    · split
      · rfl
      · rw [gapTick_frame]
    · rw [gapTick_frame]
  · rfl

/-- Disabling touches `EN`, the line, the play state and the draw counter only. -/
theorem disable_frame (s : State) :
    disable s = { s with en := false, line := false, play := (disable s).play, draws := (disable s).draws } := by
  unfold disable
  split <;> rfl

/-- Outside a wait for the drain, a tick is PG's tick. -/
theorem tick_not_waiting {s : State} (h : (s.active && s.done) = false) : tick s = pgTick s := by
  simp [tick, h]

end Sys2Proof.Machine
end

