-- ==== Sys2Proof/Laws/HostAgent.lean ====
section
/-! SUPPORT. What HOST's operations can do, said once: when HOST acts, which duty a command breaches, and what HOST does with a
response. -/

namespace Sys2Proof.Machine

/-- HOST acts exactly while its run goes on. -/
theorem hostAct_next {s t : State} {a : Host.Outcome State Fault Refusal} (h : hostAct s a = .next t) :
    s.hostRuns ∧ a = .next t := by
  unfold hostAct at h
  split at h
  · cases h
  · split at h
    · cases h
    · split at h
      · simp_all [State.hostRuns]
      · cases h

theorem hostAct_runs {s : State} {a : Host.Outcome State Fault Refusal} (h : s.hostRuns) : hostAct s a = a := by
  obtain ⟨h1, h2, h3⟩ := h
  simp [hostAct, h1, h2, h3]

/-- All that a look at the drain can do: nothing, or an end of the transmission in flight, with `OK` only after its loop and on a
drained line (R91, R93). -/
theorem waitForDrain_cases (d : Bool) (s : State) :
    waitForDrain d s = s ∨
    (s.active = true ∧ (d = true ∨ (s.done = true ∧ timedOut s = true)) ∧ waitForDrain d s = failTransmission s) ∨
    (s.active = true ∧ d = false ∧ s.done = true ∧ timedOut s = false ∧ drained s = true ∧
      waitForDrain d s = completeTransmission s) := by
  unfold waitForDrain
  cases ha : s.active
  · exact .inl rfl
  · cases d <;> cases hd : s.done <;> cases ht : timedOut s <;> cases hr : drained s <;> simp

/-- Boot step 1 moves the boot's phase and leaves the power line at a free level (R113). -/
theorem acquireGpio_next {ok : Bool} {s t : State} (h : acquireGpio ok s = .next t) :
    s.boot = .off ∧ t = { s with boot := if ok then .gpio else .failed, power := Config.powerAfterPinReset s.draws,
                                 draws := s.draws + 1 } := by
  unfold acquireGpio bootStep at h
  split at h
  · next hb => cases h; exact ⟨hb, rfl⟩
  · cases h

/-- HOST's run of a command is ENC's, and what HOST does with the response. -/
theorem hostRun_next {i : Instr} {s t : State} (h : hostRun i s = .next t) :
    ∃ u, exec i s = .next u ∧ t = hostAbsorb i u := by
  unfold hostRun at h
  split at h <;> cases h
  exact ⟨_, ‹_›, rfl⟩

theorem hostRun_of_exec {i : Instr} {s u : State} (h : exec i s = .next u) : hostRun i s = .next (hostAbsorb i u) := by
  simp [hostRun, h]

/-- HOST touches its cursor and `RING` only. -/
theorem hostAbsorb_frame (i : Instr) (s : State) : hostAbsorb i s =
    { s with ring := (hostAbsorb i s).ring, w := (hostAbsorb i s).w, done := (hostAbsorb i s).done,
             cursorSet := (hostAbsorb i s).cursorSet } := by
  unfold hostAbsorb
  split
  · rfl
  · split
    · rfl
    · split
      · rfl
      · split <;> rfl
      · rfl

theorem hostAbsorb_raiseFault (i : Instr) (c : EncFault) (cmd : CmdWord) (s : State) :
    hostAbsorb i (raiseFault c cmd s) = raiseFault c cmd s := rfl

theorem hostAbsorb_cfgw (idx : BitVec 4) (v : CfgWord) (syms : List Symbol) (d : Bool) (s : State) :
    hostAbsorb (.cfgw idx v) (respond syms d s) = respond syms d s := rfl

theorem hostAbsorb_loadc (r g b : Byte) (syms : List Symbol) (d : Bool) (s : State) :
    hostAbsorb (.loadc r g b) (respond syms d s) =
      { respond syms d s with w := 0, done := false, cursorSet := true } := rfl

/-- HOST appends the symbols of a `PULL` and, if it has a cursor, threads it (R92, R18, R19). -/
theorem hostAbsorb_pull (w f : CountWord) (d dn : Bool) (syms : List Symbol) (s : State) :
    hostAbsorb (.pull w f d) (respond syms dn s) =
      { s with rsp := some (Response.ok syms dn), ring := s.ring ++ syms,
               w := if s.cursorSet then s.w + syms.length else s.w, done := if s.cursorSet then dn else s.done } := by
  cases h : s.cursorSet <;> simp [hostAbsorb, h, respond]

/-- When HOST may issue a `PULL`: it threads its cursor faithfully, if it has one, and overstates nothing (R94). -/
theorem hostBreach_pull_none {s : State} {w f : CountWord} {d : Bool} (h : hostBreach (.pull w f d) s = none) :
    (s.cursorSet = true → w.toNat = s.w ∧ d = s.done) ∧ f.toNat ≤ s.par.ringDepth - s.ring.length := by
  simp only [hostBreach] at h
  split at h
  · cases h
  · split at h
    · cases h
    · next h2 =>
      split at h
      · cases h
      · next h3 =>
        refine ⟨fun hc => ?_, not_lt.1 h3⟩
        by_contra hn
        exact h2 ⟨hc, by rw [ne_eq, ne_eq, ← not_and_or]; exact hn⟩

theorem hostBreach_pull_kept {s : State} {w f : CountWord} {d : Bool} (hc : s.cursorSet = true → w.toNat = s.w ∧ d = s.done)
    (hd : s.done = true → d = true) (hf : f.toNat ≤ s.par.ringDepth - s.ring.length) :
    hostBreach (.pull w f d) s = none := by
  simp only [hostBreach]
  rw [if_neg, if_neg, if_neg]
  · exact not_lt.2 hf
  · rintro ⟨h1, h2 | h2⟩
    · exact h2 (hc h1).1
    · exact h2 (hc h1).2
  · rintro ⟨-, h2, h3⟩
    rw [hd h2] at h3
    cases h3

end Sys2Proof.Machine
end

