-- ==== Sys2Proof/Laws/PerInstr.lean ====
section
/-! SUPPORT. A fact about every command as syntax: its word lies in its row of spec/opcode_table.json. -/

namespace Sys2Proof.Laws.TableRow

/-- The word of the command has its row's fixed bits (`match` under `mask`). -/
def Statement (i : Instr) : Prop := encode i &&& tableMask i = tableMatch i

theorem pull (w free : CountWord) (doneIn : Bool) : Statement (.pull w free doneIn) := by
  unfold Statement encode tableMask tableMatch
  ext k hk
  have : k < 64 := hk
  simp only [BitVec.getElem_and, BitVec.getElem_append]
  interval_cases k <;> simp

theorem loadc (r g b : Byte) : Statement (.loadc r g b) := by
  unfold Statement encode tableMask tableMatch
  ext k hk
  have : k < 64 := hk
  simp only [BitVec.getElem_and, BitVec.getElem_append]
  interval_cases k <;> simp

theorem cfgw (idx : BitVec 4) (value : CfgWord) : Statement (.cfgw idx value) := by
  unfold Statement encode tableMask tableMatch
  ext k hk
  have : k < 64 := hk
  simp only [BitVec.getElem_and, BitVec.getElem_append]
  interval_cases k <;> simp

end Sys2Proof.Laws.TableRow
end

