-- ==== Sys2Proof/Tests/Slice0.lean ====
section
/-! SUPPORT. Tests of the model against spec/95_test_vectors.md (the vector is named in each docstring; L2 vectors are the
spec's own derivations, not runs of an implementation), and a witness for every statement that has hypotheses. -/

open Sys2Proof Sys2Proof.Machine

namespace Sys2Proof.Tests

/-! ### Small states -/

/-- A machine with the vectors' `CAP = 64` and `RING_DEPTH = 64`, an unbounded wait and a finished boot. -/
def machine : State :=
  { State.reset with par := { cap := 64, ringDepth := 64, queueDepth := 64, drainTimeout := none }, boot := .ready,
                     power := false }

/-- After `LOADC R=255, G=0, B=128` on ENC's port. -/
def loaded : State := { machine with payload := Payload.load 255 0 128, cfgLock := true }

/-- In `SET_COLOR`'s loop with the cursor at `w`. -/
def sending (w : Nat) : State := { loaded with active := true, en := true, cursorSet := true, w := w }

/-- In the loop with more free slots than `CAP`. -/
def roomy : State := { sending 8 with par := { machine.par with ringDepth := 65 } }

/-- With a configuration that is not valid: V-LOADC-7's `TICK_HZ`. -/
def misconfigured : State := { machine with cfg := { Cfg.reset with tickHz := 1000000 } }

/-- Waiting for the drain with nothing left to play. -/
def waiting : State := { sending 25 with done := true, play := .starved true }

/-- With events to come. -/
def withEvents (s : State) (es : List Event) : State := { s with inbox := es }

/-- The state an outcome goes on in. -/
def after : Host.Outcome State Fault Refusal → Option State
  | .next t => some t
  | .fault _ => none
  | .refused _ => none

/-- An outcome is a next state with a property, as data. -/
def goesOn (p : State → Bool) (out : Host.Outcome State Fault Refusal) : Bool :=
  match after out with
  | some t => p t
  | none => false

theorem goesOn_next {p : State → Bool} {out : Host.Outcome State Fault Refusal} (h : goesOn p out = true) :
    ∃ t, out = .next t ∧ p t = true := by
  cases out with
  | next t => exact ⟨t, rfl, h⟩
  | fault _ => cases h
  | refused _ => cases h

/-- ZERO, ONE and RESET at the reset configuration. -/
def z : Symbol := rom Cfg.reset .zero
def o : Symbol := rom Cfg.reset .one
def r : Symbol := rom Cfg.reset .reset

/-! ### Well-formedness and decoding -/

/-- R50: a `CFGW` of registers 6 and 15 is refused, of registers 0 and 5 is not. -/
theorem test_wellFormed_refuses_reserved_index :
    (Instr.cfgw 6 0).wellFormed = false ∧ (Instr.cfgw 15 0xFFFFFFFF).wellFormed = false ∧
    (Instr.cfgw 0 0).wellFormed = true ∧ (Instr.cfgw 5 0).wellFormed = true := by decide

/-- R47, bit by bit: op 0001, 27 zeros, DONE 1, W 24, FREE 8 (V-PULL-10's word). -/
theorem test_decode_pull_bits :
    decode (0b0001#4 ++ 0#27 ++ 0b1#1 ++ 0b0000000000011000#16 ++ 0b0000000000001000#16) = .cmd (.pull 24 8 true) := by decide

/-- R48, bit by bit: op 0010, 36 zeros, R 10, G 20, B 30 (V-LOADC-2's word). -/
theorem test_decode_loadc_bits :
    decode (0b0010#4 ++ 0#36 ++ 0b00001010#8 ++ 0b00010100#8 ++ 0b00011110#8) = .cmd (.loadc 10 20 30) := by decide

/-- R49, bit by bit: op 0011, 24 zeros, idx 1, value 250 (V-CFGW-4's word). -/
theorem test_decode_cfgw_bits : decode (0b0011#4 ++ 0#24 ++ 0b0001#4 ++ 0x000000FA#32) = .cmd (.cfgw 1 250) := by decide

/-- V-ENC-1 to V-ENC-5. -/
theorem test_decode_reserved_words :
    decode 0x0000000000000000#64 = .illegal .reservedOp ∧ decode 0x4000000000000000#64 = .illegal .reservedOp ∧
    decode 0xF000000000000008#64 = .illegal .reservedOp ∧ decode 0x1FFFFFFE00000000#64 = .illegal .reservedBits ∧
    decode 0x100000000018FFFF#64 = .cmd (.pull 24 65535 false) := by decide

/-- V-PULL-21, V-LOADC-8, V-LOADC-9, V-CFGW-6, V-CFGW-7, V-CFGW-8. -/
theorem test_decode_reserved_fields :
    decode 0x1000000200000008#64 = .illegal .reservedBits ∧ decode 0x2000000001000000#64 = .illegal .reservedBits ∧
    decode 0x2800000000FF0080#64 = .illegal .reservedBits ∧ decode 0x3000000600000000#64 = .illegal .reservedIndex ∧
    decode 0x3000000FFFFFFFFF#64 = .illegal .reservedIndex ∧ decode 0x3000001000989680#64 = .illegal .reservedBits := by decide

/-- The words of L3's programs, the other way. -/
theorem test_encode_words :
    encode (.loadc 1 0x80 0xFF) = 0x20000000000180FF#64 ∧ encode (.cfgw 0 10000000) = 0x3000000000989680#64 ∧
    encode (.pull 25 8 true) = 0x1000000100190008#64 ∧ encode (.cfgw 6 0) = 0x3000000600000000#64 := by decide

/-- R61: `CFG_TIMING` in index order. -/
theorem test_assemble_cfg_timing :
    assembleLine "CFG_TIMING 20000000, 350, 700, 800, 600, 50000".toList =
      some (.cfgTiming 20000000 350 700 800 600 50000) := by decide

/-! ### The symbol ROM -/

/-- V-ROM-2, a tie that rounds up, and V-ROM-10, an odd `Rt`. -/
theorem test_rom_tie_and_odd_reset :
    (rom { Cfg.reset with tickHz := 10000000 } .zero).pack = 0x00078004#32 ∧
    (rom { Cfg.reset with rstNs := 50050 } .reset).pack = 0x01F401F5#32 := by decide

/-- V-ROM-7 to V-ROM-9, V-ROM-11 to V-ROM-15 and V-ROM-17: the bounds of validity. -/
theorem test_rom_validity_bounds :
    ({ Cfg.reset with tickHz := 1000000 } : Cfg).valid = false ∧ ({ Cfg.reset with tickHz := 0 } : Cfg).valid = false ∧
    ({ Cfg.reset with tickHz := 80000000, rstNs := 1000000 } : Cfg).valid = false ∧
    ({ Cfg.reset with rstNs := 3276724 } : Cfg).valid = true ∧ ({ Cfg.reset with rstNs := 3276725 } : Cfg).valid = false ∧
    ({ Cfg.reset with rstNs := 100 } : Cfg).valid = true ∧ ({ Cfg.reset with rstNs := 75 } : Cfg).valid = true ∧
    ({ Cfg.reset with rstNs := 74 } : Cfg).valid = false ∧ ({ Cfg.reset with t0hNs := 0xFFFFFFFF } : Cfg).valid = false := by
  decide

/-! ### The commands -/

/-- V-CFGW-4: ZERO becomes `sym{1,5,0,14}`. -/
theorem test_cfgw_moves_the_rom :
    (after (exec (.cfgw 1 250) machine)).map (fun t => (t.cfg.t0hNs, rom t.cfg .zero, t.fault)) =
      some (250, { lvl0 := true, dur0 := 5, lvl1 := false, dur1 := 14 }, none) := by decide

/-- V-CFGW-9: locked, `FAULT = 2` and `CFG[0]` as it was. -/
theorem test_cfgw_locked :
    (after (exec (.cfgw 0 10000000) loaded)).map (fun t => (faultCode t.fault, t.faultCmd, t.cfg.tickHz)) =
      some (2, 0x3000000000989680#64, 20000000) := by decide

/-- V-LOADC-2: the payload goes out green, red, blue. -/
theorem test_loadc_reorders :
    (after (exec (.loadc 10 20 30) machine)).map (fun t => (t.payload.bytes, t.payload.written, t.cfgLock)) =
      some ([20, 10, 30], true, true) := by decide

/-- V-LOADC-7: an invalid configuration, `FAULT = 3`, nothing locked or written. -/
theorem test_loadc_invalid :
    (after (exec (.loadc 1 2 3) { machine with cfg := { Cfg.reset with tickHz := 1000000 } })).map
      (fun t => (faultCode t.fault, t.payload.written, t.cfgLock)) = some (3, false, false) := by decide

/-- V-PULL-9 (W1): byte 0xB0 is ONE ZERO ONE ONE ZERO ZERO ZERO ZERO. -/
theorem test_pull_msb_first :
    (after (exec (.pull 8 8 false) { machine with payload := Payload.load 0xB0 0 0, cfgLock := true })).map (·.rsp) =
      some (some { status := none, count := 8, doneOut := false, syms := [o, z, o, o, z, z, z, z] }) := by decide

/-- V-PULL-4 and V-PULL-16: the terminate arm, and `CURSOR` before `CAPACITY`. -/
theorem test_pull_terminate_and_priority :
    (after (exec (.pull 24 8 false) loaded)).map (·.rsp) =
      some (some { status := none, count := 1, doneOut := true, syms := [r] }) ∧
    (after (exec (.pull 4 65 false) loaded)).map (·.fault) = some (some .cursor) := by decide

/-- R73's vectors after the `PULL` table: the source's algorithm on inputs that the block faults. -/
theorem test_encodeRaw_faulting_inputs :
    encodeRaw Cfg.reset [0, 255, 128] 4 8 false = (8, [z, z, z, z, z, z, z, z], false) ∧
    encodeRaw Cfg.reset [0, 255, 128] 25 8 false = (1, [r], true) ∧
    encodeRaw Cfg.reset [0, 255, 128] 24 8 true = (1, [r], true) := by decide

/-! ### The line -/

/-- V-WAVE-4 to V-WAVE-7. -/
theorem test_frame_lengths :
    frameTicks Cfg.reset [0, 255, 128] = 1567 ∧ frameTicks Cfg.reset [20, 10, 30] = 1560 ∧
    frameTicks Cfg.reset [0, 0, 0] = 1504 ∧ frameTicks Cfg.reset [255, 255, 255] = 1672 := by decide

/-- V-WAVE-1: ZERO at reset is high for 7 ticks and low for 14. -/
theorem test_zero_on_the_line :
    lineTrace 21 { sending 8 with ring := [z] } = List.replicate 7 true ++ List.replicate 14 false := by decide

/-! ### HOST -/

/-- V-HOST-1. -/
theorem test_host_overlap :
    (after (step (withEvents (sending 0) [.setColor 1 2 3 false]))).map (·.hfault) = some (some .overlap) := by decide

/-- V-HOST-2. -/
theorem test_host_order :
    (after (step (withEvents (sending 8) [.issue 0x1000000000100008#64]))).map (·.hfault) = some (some .order) := by decide

/-- V-HOST-3. -/
theorem test_host_after_done :
    (after (step (withEvents waiting [.issue 0x1000000000180008#64]))).map (·.hfault) = some (some .afterDone) := by decide

/-- V-HOST-4: 60 symbols queued, 8 slots claimed. -/
theorem test_host_free_overstated :
    (after (step (withEvents { sending 8 with ring := List.replicate 60 z } [.issue 0x1000000000080008#64]))).map (·.hfault) =
      some (some .freeOverstated) := by decide

/-- V-HOST-5. -/
theorem test_host_submit_fails :
    (after (step (withEvents machine [.setColor 1 2 3 true]))).map (fun t => (t.ret, t.en, t.active, t.payload.written)) =
      some (some .fail, false, false, false) := by decide

/-- R96: a failing drain ends a transmission in its loop too, with everything released (R91, "on all exit paths"). -/
theorem test_host_fails_in_the_loop :
    (after (step (withEvents (sending 8) [.drain true]))).map (fun t => (t.ret, t.en, t.active, t.w)) =
      some (some .fail, false, false, 8) := by decide

/-- P1's first round: eight ZEROs in `RING`, the cursor at 8. -/
theorem test_host_round :
    (after (step (withEvents (sending 0) [.pull 8]))).map (fun t => (t.ring, t.w, t.done)) =
      some ([z, z, z, z, z, z, z, z], 8, false) := by decide

/-- P6: `AFTER_DONE` (5) before `CURSOR` once the transmission is over. -/
theorem test_host_p6 :
    (after (step (withEvents { waiting with active := false, en := false } [.issue 0x1000000100190008#64]))).map
      (fun t => (faultCode t.fault, t.faultCmd)) = some (5, 0x1000000100190008#64) := by decide

/-! ### Witnesses: states and operands that meet the hypotheses of each statement together, one part per clause, at the
bounds of its range. -/

/-- BlockResetLeavesTheStatedValues. -/
theorem witness_block_reset : ∃ (s : State) (rest : List Event), s.inbox = Event.blockReset :: rest :=
  ⟨withEvents loaded [.blockReset, .tick], [.tick], rfl⟩

/-- StepRunsTheDecodedCommand, both clauses. -/
theorem witness_step :
    (∃ s : State, ∃ cmd rest i, s.inbox = .port cmd :: rest ∧ decode cmd = .cmd i) ∧
    decodeTableWord 64 0x100000000018FFFF = some (.pull 24 65535 false) :=
  ⟨⟨withEvents machine [.port 0x3000000500000000#64], _, _, .cfgw 5 0, rfl, by decide⟩, by decide⟩

/-- ReservedWordsFaultIllegalCmd: each part of `reservedWord` at its bounds. -/
theorem witness_reserved_words :
    (∀ cmd ∈ [0x0FFFFFFFFFFFFFFF#64, 0x4000000000000000#64, 0xFFFFFFFFFFFFFFFF#64, 0x1000000200000000#64, 0x1800000000000000#64,
      0x2000000001000000#64, 0x2800000000000000#64, 0x3000001000000000#64, 0x3800000000000000#64, 0x3000000600000000#64,
      0x3000000F00000000#64], reservedWord cmd) ∧
    (withEvents machine [.port 0x3000000600000000#64]).takesCommands :=
  ⟨by simp [reservedWord], rfl⟩

/-- DecodeEncodeRoundTrip and EncodeDecodeRoundTrip. -/
theorem witness_round_trip :
    (∀ i ∈ [Instr.pull 0 0 false, .pull 65535 65535 true, .loadc 255 255 255, .cfgw 0 0, .cfgw 5 0xFFFFFFFF],
      i.wellFormed = true) ∧
    decode 0x30000005FFFFFFFF#64 = .cmd (.cfgw 5 0xFFFFFFFF) := by decide

/-- CfgwWritesOneRegisterOrFaults, each clause at its bounds. -/
theorem witness_cfgw :
    (machine.takesCommands ∧ (0 : BitVec 4).toNat ≤ 5 ∧ (5 : BitVec 4).toNat ≤ 5 ∧ machine.cfgLock = false) ∧
    (loaded.takesCommands ∧ (5 : BitVec 4).toNat ≤ 5 ∧ loaded.cfgLock = true) ∧
    (loaded.takesCommands ∧ 6 ≤ (6 : BitVec 4).toNat ∧ 6 ≤ (15 : BitVec 4).toNat) :=
  ⟨⟨rfl, by decide⟩, ⟨rfl, by decide⟩, ⟨rfl, by decide⟩⟩

/-- LoadcStoresGreenRedBlueOrFaults, both clauses. -/
theorem witness_loadc :
    (loaded.takesCommands ∧ loaded.cfg.valid = true) ∧
    ({ machine with cfg := { Cfg.reset with rstNs := 74 } }.takesCommands ∧ ({ Cfg.reset with rstNs := 74 } : Cfg).valid = false) :=
  ⟨⟨rfl, by decide⟩, ⟨rfl, by decide⟩⟩

/-- ConfigurationValidity's second clause and ConversionIsWithinHalfATick. -/
theorem witness_tick_frequency : ({ Cfg.reset with tickHz := 0 } : Cfg).tickHz = 0 ∧ Cfg.reset.tickHz ≠ 0 := by decide

/-- LockProtectsTheConfiguration, each clause; the properties are those of the next state. -/
theorem witness_lock :
    (∃ t, exec (.loadc 1 2 3) machine = .next t ∧ (t.fault.isNone && !machine.cfgLock && t.cfgLock) = true) ∧
    (withEvents loaded [.port 0x3000000000000000#64]).noReset ∧
    (∃ t, step (withEvents loaded [.port 0x3000000000000000#64]) = .next t ∧ loaded.cfgLock = true) ∧
    (∃ t, exec (.cfgw 5 0) loaded = .next t ∧ (decide ((5 : BitVec 4).toNat ≤ 5) && loaded.cfgLock) = true) :=
  ⟨goesOn_next (p := fun t => t.fault.isNone && !machine.cfgLock && t.cfgLock) (by decide), by unfold State.noReset; decide,
    goesOn_next (p := fun _ => loaded.cfgLock) (by decide),
    goesOn_next (p := fun _ => decide ((5 : BitVec 4).toNat ≤ 5) && loaded.cfgLock) (by decide)⟩

/-- OnlyLoadcWritesThePayload: each event that may change the payload, on a payload of other bytes, and block reset. -/
theorem witness_payload_steps :
    (∀ e ∈ [Event.port 0x20000000000A141E#64, .issue 0x20000000000A141E#64, .setColor 10 20 30 false],
      (withEvents loaded [e]).noReset ∧
      ∃ t, step (withEvents loaded [e]) = .next t ∧ (decide (t.payload ≠ loaded.payload)) = true) ∧
    (¬ (withEvents loaded [.blockReset]).noReset ∧ ∃ t, step (withEvents loaded [.blockReset]) = .next t ∧ (!t.payload.written) = true) := by
  refine ⟨?_, by unfold State.noReset; decide, goesOn_next (p := fun t => !t.payload.written) (by decide)⟩
  simp only [List.forall_mem_cons]
  refine ⟨⟨by unfold State.noReset; decide, goesOn_next (p := fun t => decide (t.payload ≠ loaded.payload)) (by decide)⟩,
    ⟨by unfold State.noReset; decide, goesOn_next (p := fun t => decide (t.payload ≠ loaded.payload)) (by decide)⟩,
    ⟨by unfold State.noReset; decide, goesOn_next (p := fun t => decide (t.payload ≠ loaded.payload)) (by decide)⟩, ?_⟩
  simp

/-- SymbolWordLayout: legal symbols at the bounds of R22. -/
theorem witness_symbol_fits :
    ({ lvl0 := true, dur0 := 1, lvl1 := true, dur1 := 32767 } : Symbol).fits = true ∧
    ({ lvl0 := false, dur0 := 32767, lvl1 := false, dur1 := 1 } : Symbol).fits = true := by decide

/-- PullStallsBelowEightSlots, PullSendsOneByte and PullEmitsTheResetSymbol at their bounds. -/
theorem witness_pull_arms :
    (loaded.takesCommands ∧ loaded.payload.written = true ∧ loaded.par.cap = 64) ∧
    (∀ w ∈ [0#16, 24#16], w.toNat % 8 = 0 ∧ w.toNat / 8 ≤ 3) ∧ (∀ f ∈ [0#16, 7#16], f.toNat ≤ 64 ∧ f.toNat < 8) ∧
    (∀ w ∈ [0#16, 16#16], w.toNat % 8 = 0 ∧ w.toNat / 8 < 3 ∧ (memReadP loaded.payload (w.toNat / 8)).isSome = true) ∧
    (∀ f ∈ [8#16, 64#16], 8 ≤ f.toNat ∧ f.toNat ≤ 64) :=
  ⟨⟨rfl, rfl, rfl⟩, by simp, by simp, by simp [loaded, memReadP, Payload.load, Payload.byte?], by simp⟩

/-- PullFaultPriority: each clause; a cursor that is no whole byte, and one past the frame. -/
theorem witness_pull_faults :
    (machine.takesCommands ∧ machine.payload.written = false) ∧
    (loaded.takesCommands ∧ loaded.payload.written = true ∧ loaded.par.cap = 64) ∧
    (∀ w ∈ [1#16, 25#16, 32#16, 65535#16], w.toNat % 8 ≠ 0 ∨ w.toNat / 8 > 3) ∧
    ((24#16).toNat % 8 = 0 ∧ (24#16).toNat / 8 ≤ 3 ∧ (65#16).toNat > 64) :=
  ⟨⟨rfl, rfl⟩, ⟨rfl, rfl, rfl⟩, by simp, by decide⟩

/-- ResponsesAreWholeBytes, PullAgreesWithEncodeRaw, PullHasNoHiddenInput's second clause and CommandFrame: a `PULL` of each
arm, one that faults, and the other two commands. -/
theorem witness_command_answers :
    (∃ t, exec (.pull 0 7 false) loaded = .next t ∧ (t.fault.isNone) = true) ∧
    (∃ t, exec (.pull 16 8 false) loaded = .next t ∧ (t.fault.isNone) = true) ∧
    (∃ t, exec (.pull 24 64 false) loaded = .next t ∧ ((t.rsp.map (·.doneOut)) == some true) = true) ∧
    (∃ t, exec (.pull 24 65 false) loaded = .next t ∧ (t.fault.isSome) = true) ∧
    (∃ t, exec (.loadc 1 2 3) loaded = .next t ∧ (t.fault.isNone) = true) ∧
    (∃ t, exec (.loadc 1 2 3) { machine with cfg := { Cfg.reset with rstNs := 74 } } = .next t ∧ (t.fault.isSome) = true) ∧
    (∃ t, exec (.cfgw 5 0) machine = .next t ∧ (t.fault.isNone) = true) ∧
    (∃ t, exec (.cfgw 6 0) machine = .next t ∧ (t.fault.isSome) = true) :=
  ⟨goesOn_next (p := fun t => t.fault.isNone) (by decide),
    goesOn_next (p := fun t => t.fault.isNone) (by decide),
    goesOn_next (p := fun t => (t.rsp.map (·.doneOut)) == some true) (by decide),
    goesOn_next (p := fun t => t.fault.isSome) (by decide),
    goesOn_next (p := fun t => t.fault.isNone) (by decide),
    goesOn_next (p := fun t => t.fault.isSome) (by decide),
    goesOn_next (p := fun t => t.fault.isNone) (by decide),
    goesOn_next (p := fun t => t.fault.isSome) (by decide)⟩

/-- PullHasNoHiddenInput's first clause: two states that differ wherever it lets them. -/
theorem witness_pull_same_inputs :
    loaded ≠ sending 8 ∧ loaded.takesCommands ∧ (sending 8).takesCommands ∧ loaded.payload = (sending 8).payload ∧
    loaded.cfg = (sending 8).cfg ∧ loaded.par.cap = (sending 8).par.cap := ⟨fun h => Bool.false_ne_true (congrArg State.active h), rfl, rfl, rfl, rfl, rfl⟩

/-- FourOffersSendTheFrame: P2's free counts, and fewer than four offers. -/
theorem witness_free_counts :
    loaded.takesCommands ∧ loaded.payload.written = true ∧
    loaded.par.cap = 64 ∧ (∀ f ∈ [5#16, 64#16, 3#16, 16#16, 8#16, 7#16, 8#16], f.toNat ≤ 64) ∧
    offers [5#16, 64#16, 3#16, 16#16, 8#16, 7#16, 8#16] = 4 ∧ offers [7#16, 8#16, 8#16, 8#16] = 3 :=
  ⟨rfl, rfl, rfl, by simp, by decide, by decide⟩

/-- FaultsArePrecise, each clause: an illegal word and a command that faults, on the port and by each of HOST's steps. -/
theorem witness_precise_faults :
    (∀ w, (withEvents loaded [.port w]).takesCommands) ∧
    (∃ t, step (withEvents loaded [.port 0#64]) = .next t ∧ (t.fault == some .illegalCmd) = true) ∧
    (∃ t, step (withEvents loaded [.port 0x1000000000040041#64]) = .next t ∧ (t.fault == some .cursor) = true) ∧
    (∃ t, step (withEvents loaded [.issue 0#64]) = .next t ∧ (t.fault == some .illegalCmd) = true) ∧
    (∃ t, step (withEvents roomy [.pull 65]) = .next t ∧ (t.fault == some .capacity) = true) ∧
    (∃ t, step (withEvents misconfigured [.setColor 1 2 3 false]) = .next t ∧ (t.fault == some .cfgInvalid) = true) :=
  ⟨fun _ => rfl, goesOn_next (p := fun t => t.fault == some .illegalCmd) (by decide),
    goesOn_next (p := fun t => t.fault == some .cursor) (by decide),
    goesOn_next (p := fun t => t.fault == some .illegalCmd) (by decide),
    goesOn_next (p := fun t => t.fault == some .capacity) (by decide),
    goesOn_next (p := fun t => t.fault == some .cfgInvalid) (by decide)⟩

/-- FaultsEndHostsRun, each clause; the last round too. -/
theorem witness_host_faults :
    (∀ e, (withEvents loaded [e]).hostRuns ∧ (withEvents roomy [e]).hostRuns ∧ (withEvents misconfigured [e]).hostRuns) ∧
    (∃ t, step (withEvents loaded [.issue 0x3000000500000000#64]) = .next t ∧ (t.fault == some .cfgLocked) = true) ∧
    reservedWord 0#64 ∧ ((5 : BitVec 4).toNat ≤ 5 ∧ loaded.cfgLock = true) ∧
    (misconfigured.active = false ∧ misconfigured.cfg.valid = false) ∧
    (∀ w ∈ [0, 24], ({ roomy with w := w } : State).active = true ∧ ({ roomy with w := w } : State).done = false ∧
      ({ roomy with w := w } : State).payload.written = true ∧ w ∈ [0, 8, 16, 24] ∧
      ({ roomy with w := w } : State).par.cap < (65#16).toNat ∧
      (65#16).toNat ≤ ({ roomy with w := w } : State).par.ringDepth - ({ roomy with w := w } : State).ring.length) :=
  ⟨fun _ => ⟨⟨rfl, rfl, rfl⟩, ⟨rfl, rfl, rfl⟩, ⟨rfl, rfl, rfl⟩⟩,
    goesOn_next (p := fun t => t.fault == some .cfgLocked) (by decide), by simp [reservedWord], by decide, by decide, by decide⟩

/-- A faulted ENC. -/
def faulted : State := { loaded with fault := some .cursor, faultCmd := 0x1000000000040008#64 }

/-- FaultsAreSticky, each clause. -/
theorem witness_sticky :
    faulted.fault = some .cursor ∧
    (withEvents faulted [.port 0#64]).inbox = .port 0#64 :: [] ∧ (withEvents faulted [.issue 0#64]).inbox = .issue 0#64 :: [] ∧
    (∃ t, (withEvents faulted [.power true true]).noReset ∧ step (withEvents faulted [.power true true]) = .next t) ∧
    (∃ t, ¬ (withEvents faulted [.blockReset]).noReset ∧ step (withEvents faulted [.blockReset]) = .next t) :=
  ⟨rfl, rfl, rfl, ⟨_, by unfold State.noReset; decide, rfl⟩, ⟨_, by unfold State.noReset; decide, rfl⟩⟩

/-- OnlyCommandsChangeEnc: each of the events it names, and none at all. -/
theorem witness_other_events :
    (∃ t, step (withEvents (sending 0) []) = .next t) ∧ (∃ t, step (withEvents (sending 0) [.tick]) = .next t) ∧
    (∃ t, step (withEvents waiting [.drain false]) = .next t) ∧
    (∃ t, step (withEvents { machine with boot := .off } [.acquireGpio true]) = .next t) ∧
    (∃ t, step (withEvents { machine with boot := .gpio } [.configureChannel false]) = .next t) ∧
    (∃ t, step (withEvents machine [.power false true]) = .next t) ∧
    (∃ t, step (withEvents machine [.cfgTiming 1 2 3 4 5 6]) = .next t) :=
  ⟨⟨_, rfl⟩, ⟨_, rfl⟩, ⟨_, rfl⟩, ⟨_, rfl⟩, ⟨_, rfl⟩, ⟨_, rfl⟩, ⟨_, rfl⟩⟩

/-- SymbolIsPlayedPartByPart, each clause: with an empty part, with no ticks at all and at the last tick; and
RingIsPlayedBackToBack, with an empty `RING` too. -/
theorem witness_playing :
    (∀ x ∈ [z, o, r, { lvl0 := true, dur0 := 0, lvl1 := false, dur1 := 1 }, { lvl0 := true, dur0 := 0, lvl1 := true, dur1 := 0 }],
      ∀ rest ∈ [[], [o]], ({ sending 8 with ring := x :: rest } : State).en = true ∧
        ({ sending 8 with ring := x :: rest } : State).play = .idle) ∧
    (0 < z.dur0 + z.dur1) ∧
    (∀ e ∈ [0, 1, 20, 21], ({ sending 8 with play := .playing z e } : State).en = true) ∧
    (∀ l ∈ [[], [z], [o, z, r]], ({ sending 8 with ring := l } : State).en = true ∧ (sending 8).play = .idle ∧
      ∀ x ∈ l, 0 < x.total) := by decide

/-- NoSymbolIsDropped, each clause: a tick in mid symbol, one in which the head begins, a round, and a failing drain. -/
theorem witness_ring :
    (∀ q ∈ [.playing z 20, .idle], ∀ e ∈ [.tick, .pull 8, .drain true],
      let s : State := withEvents { sending 8 with play := q, ring := [o, r] } [e]
      (s.inbox.head? ≠ some .blockReset) ∧ (∀ x ∈ s.ring, 0 < x.total)) ∧
    (∃ t, step (withEvents { sending 8 with play := .playing z 20, ring := [o, r] } [.tick]) = .next t) ∧
    (∃ t, step (withEvents { sending 8 with ring := [o, r] } [.tick]) = .next t) ∧
    (∃ t, step (withEvents { sending 8 with ring := [o, r] } [.pull 8]) = .next t) ∧
    (∃ t, step (withEvents { sending 8 with ring := [o, r] } [.drain true]) = .next t) :=
  ⟨by decide, ⟨_, rfl⟩, ⟨_, rfl⟩, ⟨_, rfl⟩, ⟨_, rfl⟩⟩

/-- R85: PG drops no symbol. Disabling just as one symbol ends leaves the next, which has not begun, at the head of `RING`, and
PG begins it after the next enable. -/
theorem test_disable_at_a_boundary_drops_no_symbol :
    let s : State := disable (pgTick { sending 8 with play := .playing z 20, ring := [o, r] })
    s.ring = [o, r] ∧ (pgTick { s with en := true }).play = .playing o 1 := by decide

/-- UnderrunIdlesLow, each clause. -/
theorem witness_underrun :
    ((sending 8).en = true ∧ z.total ≤ 20 + 1 ∧ ({ sending 8 with play := .playing z 20 } : State).ring = []) ∧
    (∀ g, ({ sending 8 with play := .starved g } : State).en = true ∧ (sending 8).ring = []) ∧
    (({ sending 8 with play := .starved false, ring := [r, o] } : State).en = true ∧ [r, o] ≠ [] ∧
      ∀ x ∈ [r, o], 0 < x.total) := by decide

/-- DisabledLineIsLow and EnabledRingDrains. -/
theorem witness_enable : machine.en = false ∧ { sending 8 with ring := List.replicate 64 r }.en = true := by decide

/-- SetColorStartsATransmission and SubmitFailureReleasesTheChannel. -/
theorem witness_set_color :
    (∀ f, (withEvents machine [.setColor 255 0 128 f]).hostRuns) ∧ machine.active = false ∧ machine.cfg.valid = true :=
  ⟨fun _ => ⟨rfl, rfl, rfl⟩, rfl, by decide⟩

/-- BreachesStopHost, each clause. -/
theorem witness_breaches :
    (sending 8).hostRuns ∧ waiting.hostRuns ∧
    (decode 0x2000000000000000#64 = .cmd (.loadc 0 0 0) ∧ (sending 8).active = true) ∧
    (decode 0x1000000000180008#64 = .cmd (.pull 24 8 false) ∧ waiting.cursorSet = true ∧ waiting.done = true) ∧
    (decode 0x1000000000100008#64 = .cmd (.pull 16 8 false) ∧ (sending 8).cursorSet = true ∧
      ¬((sending 8).done = true ∧ false = false) ∧ ((16#16).toNat ≠ (sending 8).w ∨ false ≠ (sending 8).done)) ∧
    (decode 0x1000000000080008#64 = .cmd (.pull 8 8 false) ∧
      ((sending 8).cursorSet = true → (8#16).toNat = (sending 8).w ∧ false = (sending 8).done) ∧
      64 - (List.replicate 57 z).length < (8#16).toNat) ∧
    ({ machine with hfault := some .order }.fault = none ∧ (Event.cfgTiming 1 2 3 4 5 6).isHosts ∧ (Event.drain true).isHosts) :=
  ⟨⟨rfl, rfl, rfl⟩, ⟨rfl, rfl, rfl⟩, by decide, by decide, by decide, by decide, rfl, .inr (.inl ⟨1, 2, 3, 4, 5, 6, rfl⟩),
    .inr (.inr (.inr (.inr ⟨true, rfl⟩)))⟩

/-- BreachFreeCommandsReachEnc, each clause: the first `LOADC`; a `PULL` of all the free slots with the cursor threaded, one after
completion with the flag passed in, and one before any `LOADC` of HOST's. -/
theorem witness_breach_free :
    (∀ e, (withEvents machine [e]).hostRuns ∧ (withEvents (sending 8) [e]).hostRuns ∧ (withEvents waiting [e]).hostRuns) ∧
    decode 0x3000000500000000#64 = .cmd (.cfgw 5 0) ∧
    (decode 0x2000000000FF0080#64 = .cmd (.loadc 255 0 128) ∧ machine.active = false ∧ machine.cfg.valid = true) ∧
    (decode 0x1000000000080040#64 = .cmd (.pull 8 64 false) ∧
      ((sending 8).cursorSet = true → (8#16).toNat = (sending 8).w ∧ false = (sending 8).done) ∧
      (64#16).toNat ≤ (sending 8).par.ringDepth - (sending 8).ring.length) ∧
    (decode 0x1000000100190008#64 = .cmd (.pull 25 8 true) ∧
      (waiting.cursorSet = true → (25#16).toNat = waiting.w ∧ true = waiting.done) ∧
      (8#16).toNat ≤ waiting.par.ringDepth - waiting.ring.length) ∧
    machine.cursorSet = false :=
  ⟨fun _ => ⟨⟨rfl, rfl, rfl⟩, ⟨rfl, rfl, rfl⟩, ⟨rfl, rfl, rfl⟩⟩, by decide, by decide, by decide, by decide, rfl⟩

/-- R94's duties kept: HOST's own `PULL` in mid transmission appends one byte's symbols and threads the cursor (R92, R18). -/
theorem test_host_issues_a_pull :
    (after (step (withEvents (sending 8) [.issue 0x1000000000080008#64]))).map (fun t => (t.ring, t.w, t.done, t.hfault)) =
      some ([o, o, o, o, o, o, o, o], 16, false, none) := by decide

/-- The middle of a transmission meets the invariant. -/
theorem sending_inv {w : Nat} (hw : w ∈ [0, 8, 16, 24]) : (sending w).Inv where
  cap_min := by show 8 ≤ 64; decide
  lock_payload := rfl
  lock_valid := fun _ => by show Cfg.reset.valid = true; decide
  rsp_wf := fun _ h => by cases h
  ring_bound := Nat.zero_le _
  ring_fits := fun _ h => by cases h
  play_wf := fun _ _ h => by cases h
  cursor_legal := fun _ => .inl ⟨hw, rfl⟩
  cursor_loaded := fun _ => rfl
  channel := rfl
  line_idle := fun h => by cases h
  active_boot := fun _ => ⟨rfl, fun _ => rfl⟩
  ret_open := fun _ => rfl

/-- So does the loop with more free slots than `CAP`: FaultsEndHostsRun's `Inv` beside a round that faults. -/
theorem roomy_inv (es : List Event) : (withEvents roomy es).Inv := by
  have h := sending_inv (w := 8) (by decide)
  constructor <;> first | exact h.cap_min | exact h.lock_payload | exact h.lock_valid | exact h.rsp_wf | exact h.ring_fits | exact h.play_wf | exact h.cursor_legal | exact h.cursor_loaded | exact h.channel | exact h.line_idle | exact h.active_boot | exact h.ret_open | exact Nat.zero_le _

/-- A machine ready for a first `SET_COLOR` meets the invariant, whatever the events to come. -/
theorem machine_inv (es : List Event) : (withEvents machine es).Inv where
  cap_min := by show 8 ≤ 64; decide
  lock_payload := rfl
  lock_valid := fun h => by cases h
  rsp_wf := fun _ h => by cases h
  ring_bound := Nat.zero_le _
  ring_fits := fun _ h => by cases h
  play_wf := fun _ _ h => by cases h
  cursor_legal := fun h => by cases h
  cursor_loaded := fun h => by cases h
  channel := rfl
  line_idle := fun _ => rfl
  active_boot := fun h => by cases h
  ret_open := fun h => by cases h

/-- Events to come are no part of the invariant. -/
theorem withEvents_inv {s : State} (h : s.Inv) (es : List Event) : (withEvents s es).Inv := by
  cases h; constructor <;> assumption

/-- RoundAppendsAndThreads: the first and the last round, and a stalling one. -/
theorem witness_round :
    ∀ w ∈ [0, 24], ∀ f ∈ [0#16, 7#16, 8#16, 64#16],
      (withEvents (sending w) [.pull f]).Inv ∧ (sending w).hostRuns ∧ (sending w).active = true ∧ (sending w).done = false ∧
      f.toNat ≤ (sending w).par.ringDepth - (sending w).ring.length ∧ f.toNat ≤ (sending w).par.cap := by
  intro w hw f hf
  have hle : f.toNat ≤ 64 := by revert f; simp
  refine ⟨withEvents_inv (sending_inv ?_) _, ⟨rfl, rfl, rfl⟩, rfl, rfl, ?_, hle⟩
  · revert w; simp
  · simpa [sending, loaded, machine, State.reset] using hle

/-- FewSlotsStallTheTransmission: 7 free slots, a round that goes through and one that overstates them. -/
theorem witness_few_slots :
    64 - (List.replicate 57 z).length < 8 ∧
    (∃ t, step (withEvents { sending 8 with ring := List.replicate 57 z } [.pull 7]) = .next t ∧ t.hfault.isNone = true) ∧
    (∃ t, step (withEvents { sending 8 with ring := List.replicate 57 z } [.pull 8]) = .next t ∧ t.hfault.isSome = true) :=
  ⟨by decide, goesOn_next (p := fun t => t.hfault.isNone) (by decide), goesOn_next (p := fun t => t.hfault.isSome) (by decide)⟩

/-- DrainEndsTheTransmission, each clause. -/
theorem witness_drain :
    waiting.hostRuns ∧ waiting.active = true ∧ waiting.done = true ∧ waiting.par.drainTimeout = none ∧ drained waiting = true ∧
    drained { waiting with ring := [r] } = false ∧ (sending 8).hostRuns ∧ (sending 8).active = true ∧ (sending 8).done = false ∧
    (∀ n, ({ waiting with par := { waiting.par with drainTimeout := some 1 }, waited := n } : State).par.drainTimeout = some 1 ∧
      drained { waiting with par := { waiting.par with drainTimeout := some 1 }, waited := n } = true ∧
      drained { waiting with par := { waiting.par with drainTimeout := some 1 }, waited := n, ring := [r] } = false ∧
      ({ waiting with par := { waiting.par with drainTimeout := some 1 }, waited := n } : State).waited = n) :=
  ⟨⟨rfl, rfl, rfl⟩, rfl, rfl, rfl, rfl, rfl, ⟨rfl, rfl, rfl⟩, rfl, rfl, fun _ => ⟨rfl, rfl, rfl, rfl⟩⟩

/-- PowerLineIsIndependent and BootMakesHostRun, each clause. -/
theorem witness_power_and_boot :
    (withEvents machine [.power false true, .power true true]).inbox = [.power false true, .power true true] ∧
    ((withEvents machine [.tick]).noReset ∧ (∀ on ok rest, (withEvents machine [.tick]).inbox ≠ .power on ok :: rest) ∧
      ∀ ok rest, (withEvents machine [.tick]).inbox ≠ .acquireGpio ok :: rest) ∧
    ({ machine with boot := .off } : State).boot = .off ∧
    (∃ t, (withEvents { machine with boot := .failed } [.tick]).noReset ∧
      step (withEvents { machine with boot := .failed } [.tick]) = .next t) ∧
    ({ machine with boot := .gpio } : State).boot ≠ .ready :=
  ⟨rfl, ⟨by unfold State.noReset; decide, fun _ _ _ h => (by cases h), fun _ _ h => (by cases h)⟩, rfl, ⟨_, by unfold State.noReset; decide, rfl⟩, by decide⟩

/-- CfgTimingWritesSixRegisters, both clauses. -/
theorem witness_cfg_timing :
    (withEvents machine [.cfgTiming 0 0 0 0 0 0xFFFFFFFF]).hostRuns ∧ machine.cfgLock = false ∧
    (withEvents loaded [.cfgTiming 0 0 0 0 0 0xFFFFFFFF]).hostRuns ∧ loaded.cfgLock = true :=
  ⟨⟨rfl, rfl, rfl⟩, rfl, ⟨rfl, rfl, rfl⟩, rfl⟩

/-- StepKeepsTheInvariant: a state of a transmission and a step of it. -/
theorem witness_invariant :
    (withEvents (sending 24) [.pull 8]).Inv ∧
    ∃ t, step (withEvents (sending 24) [.pull 8]) = .next t ∧ t.done = true :=
  ⟨withEvents_inv (sending_inv (by decide)) _, goesOn_next (p := fun t => t.done) (by decide)⟩

/-- SetColorQueuesTheFrame: free counts that stall, offer, take all that is free, and go on after the fourth offer. -/
theorem witness_free_counts_of_rounds :
    ∀ k f, [64#16, 7#16, 56#16, 8#16, 40#16, 39#16][k]? = some f → f.toNat ≤ machine.par.cap ∧
      f.toNat ≤ machine.par.ringDepth - sentAfter ([64#16, 7#16, 56#16, 8#16, 40#16, 39#16].take k) := by
  intro k f h
  match k with
  | 0 | 1 | 2 | 3 | 4 | 5 => cases h; decide
  | n + 6 => simp at h

/-- EveryScheduleQueuesTheFrame: rounds, a stall, ticks and a look at the drain. -/
theorem witness_schedule :
    let es : List Event := [.pull 8, .tick, .pull 7, .drain false, .pull 8]
    (∀ e ∈ es, e.keepsGoing) ∧
    ∃ t, Host.Core.run Sys2Proof.core 6 (withEvents machine (.setColor 255 0 128 false :: es ++ [.tick])) = .next t ∧
      decide (t.fault = none ∧ t.hfault = none ∧ t.boot = .ready) = true := by
  refine ⟨?_, goesOn_next (p := fun t => decide (t.fault = none ∧ t.hfault = none ∧ t.boot = .ready)) (by decide)⟩
  simp [Event.keepsGoing]

/-- SetColorQueuesTheFrame and SetColorRunsToOk. -/
theorem witness_whole_set_color (es : List Event) :
    (withEvents machine es).Inv ∧ (withEvents machine es).hostRuns ∧ machine.active = false ∧ machine.cfg.valid = true ∧
    8 ≤ machine.par.cap ∧ 32 ≤ machine.par.ringDepth ∧ machine.par.drainTimeout = none ∧ machine.ring = [] ∧
    machine.play = .idle :=
  ⟨machine_inv es, ⟨rfl, rfl, rfl⟩, rfl, by decide, by decide, by decide, rfl, rfl, rfl⟩

/-- FailureMayLeaveAnyPrefix, with a `RING_DEPTH` of 8. -/
theorem witness_any_prefix :
    let s : State := { withEvents machine [] with par := { machine.par with ringDepth := 8 } }
    s.Inv ∧ s.hostRuns ∧ s.active = false ∧ s.cfg.valid = true ∧ 8 ≤ s.par.ringDepth ∧ s.ring = [] ∧ s.play = .idle := by
  have h := machine_inv []
  refine ⟨?_, ⟨rfl, rfl, rfl⟩, rfl, by decide, by decide, rfl, rfl⟩
  constructor <;> first | exact h.cap_min | exact h.lock_valid | exact h.rsp_wf | exact h.ring_fits | exact h.play_wf | exact h.cursor_legal | exact h.line_idle | exact h.active_boot | exact h.ret_open | exact h.cursor_loaded | rfl | exact Nat.zero_le _

/-- EveryTransmissionCanEnd, with a `RING_DEPTH` of 8. -/
theorem witness_can_end :
    let s : State := { sending 16 with par := { (sending 16).par with ringDepth := 8 } }
    s.Inv ∧ s.hostRuns ∧ s.active = true ∧ 8 ≤ s.par.ringDepth ∧ s.par.drainTimeout = none := by
  have h := sending_inv (w := 16) (by decide)
  refine ⟨?_, ⟨rfl, rfl, rfl⟩, rfl, by decide, rfl⟩
  constructor <;> first | exact h.lock_valid | exact h.rsp_wf | exact h.ring_fits | exact h.play_wf | exact h.cursor_legal | exact h.line_idle | exact h.active_boot | exact h.ret_open | exact h.cursor_loaded | rfl | decide

end Sys2Proof.Tests
end

namespace Sys2Proof.Machine

/-! ### ENC's part of the state, and what a step can do to it

ENC's fields are read as one value, so that "ENC is left as it is" is one equation. A step then leaves ENC as it is, runs one
command on it, or raises `ILLEGAL_CMD` on it; block reset is the one exception. -/

/-- The fields of ENC (R17, R20, R21, R24) and the response on its port (R25). -/
structure Enc where
  cfg : Cfg
  cfgLock : Bool
  payload : Payload
  fault : Option EncFault
  faultCmd : CmdWord
  rsp : Option Response

/-- ENC as it stands in a state of the machine. -/
def State.enc (s : State) : Enc :=
  { cfg := s.cfg, cfgLock := s.cfgLock, payload := s.payload, fault := s.fault, faultCmd := s.faultCmd, rsp := s.rsp }

section enc
variable {s t : State}

theorem cfg_of_enc (h : t.enc = s.enc) : t.cfg = s.cfg := congrArg Enc.cfg h

theorem cfgLock_of_enc (h : t.enc = s.enc) : t.cfgLock = s.cfgLock := congrArg Enc.cfgLock h

end enc

section
variable (s : State)

@[simp] theorem disable_enc : (disable s).enc = s.enc := by
  rw [disable_frame]
  rfl

@[simp] theorem failTransmission_enc : (failTransmission s).enc = s.enc := disable_enc s

@[simp] theorem completeTransmission_enc : (completeTransmission s).enc = s.enc := disable_enc s

@[simp] theorem pgTick_enc : (pgTick s).enc = s.enc := by
  rw [pgTick_frame]
  rfl

@[simp] theorem tick_enc : (tick s).enc = s.enc := by
  unfold tick
  rw [pgTick_enc]
  split <;> rfl

@[simp] theorem waitForDrain_enc (d : Bool) : (waitForDrain d s).enc = s.enc := by
  obtain h | ⟨-, -, h⟩ | ⟨-, -, -, -, -, h⟩ := waitForDrain_cases d s <;> simp [h]

@[simp] theorem hostAbsorb_enc (i : Instr) : (hostAbsorb i s).enc = s.enc := by
  rw [hostAbsorb_frame]
  rfl

end

section
variable {s t : State}

theorem bootStep_enc {before after : Boot} {ok : Bool} (h : bootStep before after ok s = .next t) : t.enc = s.enc := by
  unfold bootStep at h
  split at h <;> cases h
  rfl

theorem acquireGpio_enc {ok : Bool} (h : acquireGpio ok s = .next t) : t.enc = s.enc := by
  obtain ⟨-, rfl⟩ := acquireGpio_next h
  rfl

theorem setPower_enc {on ok : Bool} (h : setPower on ok s = .next t) : t.enc = s.enc := by
  unfold setPower at h
  split at h <;> cases h
  rfl

end

/-- What a step other than block reset can do to ENC: leave it, run a command on it, or raise `ILLEGAL_CMD` on it; in the last
two, `u` and `v` are the machine as ENC takes the word and as it has answered. -/
inductive EncMove (s t : State) : Prop where
  | kept (h : t.enc = s.enc)
  | ran (i : Instr) (u v : State) (hu : u.enc = s.enc) (hrun : exec i u = .next v) (ht : t.enc = v.enc)
  | illegal (cmd : CmdWord) (u : State) (hu : u.enc = s.enc) (hf : u.fault = none)
      (ht : t.enc = (raiseFault .illegalCmd cmd u).enc)

/-- What happens to ENC depends on ENC's part of the first state only. -/
theorem EncMove.of_enc {s s' t : State} (h : EncMove s' t) (hs : s'.enc = s.enc) : EncMove s t := by
  cases h with
  | kept h => exact .kept (h.trans hs)
  | ran i u v hu hrun ht => exact .ran i u v (hu.trans hs) hrun ht
  | illegal cmd u hu hf ht => exact .illegal cmd u (hu.trans hs) hf ht

section
variable {s t : State}

theorem encStep_encMove {cmd : CmdWord} (h : encStep cmd s = .next t) : EncMove s t := by
  unfold encStep at h
  split at h
  · next i _ => exact .ran i s t rfl h rfl
  · obtain ⟨hf, ⟨c, hc, rfl⟩ | hok⟩ := command_next h
    · cases hc
      exact .illegal cmd s rfl hf rfl
    · cases hok

theorem hostRun_encMove {i : Instr} (h : hostRun i s = .next t) : EncMove s t := by
  obtain ⟨v, hrun, rfl⟩ := hostRun_next h
  exact .ran i s v rfl hrun (hostAbsorb_enc v i)

theorem hostIssue_encMove {cmd : CmdWord} (h : hostIssue cmd s = .next t) : EncMove s t := by
  unfold hostIssue at h
  split at h
  · exact encStep_encMove h
  · split at h
    · cases h
      exact .kept rfl
    · exact hostRun_encMove h

theorem startTransmission_encMove {r g b : Byte} {submitFails : Bool}
    (h : startTransmission r g b submitFails s = .next t) : EncMove s t := by
  unfold startTransmission at h
  split at h
  · cases h
    exact .kept rfl
  · split at h
    · cases h
      exact .kept (failTransmission_enc _)
    · exact (hostRun_encMove h).of_enc rfl

theorem pullRound_encMove {free : CountWord} (h : pullRound free s = .next t) : EncMove s t := by
  unfold pullRound at h
  split at h
  · exact hostIssue_encMove h
  · cases h
    exact .kept rfl

theorem runEvent_encMove {e : Event} (he : e ≠ .blockReset) (h : runEvent e s = .next t) : EncMove s t := by
  cases e with
  | port cmd => exact encStep_encMove h
  | issue cmd => exact hostIssue_encMove (hostAct_next h).2
  | cfgTiming hz t0h t0l t1h t1l rst =>
    cases (hostAct_next h).2
    exact .kept rfl
  | setColor r g b submitFails => exact startTransmission_encMove (hostAct_next h).2
  | pull free => exact pullRound_encMove (hostAct_next h).2
  | drain drainFails =>
    cases (hostAct_next h).2
    exact .kept (waitForDrain_enc s drainFails)
  | acquireGpio ok => exact .kept (acquireGpio_enc h)
  | configureChannel ok => exact .kept (bootStep_enc h)
  | power on ok => exact .kept (setPower_enc h)
  | tick =>
    cases h
    exact .kept (tick_enc s)
  | blockReset => exact absurd rfl he

/-! ### The step by its next event -/

theorem step_nil (h : s.inbox = []) : step s = .next (tick s) := by
  simp only [step, nextMove, h]

theorem step_cons {e : Event} {rest : List Event} (h : s.inbox = e :: rest) :
    step s = runEvent e { s with inbox := rest } := by
  simp only [step, nextMove, h]

/-- Every step but block reset does to ENC what `EncMove` lists. -/
theorem step_encMove (hn : s.noReset) (h : step s = .next t) : EncMove s t := by
  cases hi : s.inbox with
  | nil =>
    rw [step_nil hi] at h
    cases h
    exact .kept (tick_enc s)
  | cons e rest =>
    rw [step_cons hi] at h
    have he : e ≠ .blockReset := by
      rintro rfl
      simp [State.noReset, hi] at hn
    exact (runEvent_encMove he h).of_enc rfl

theorem step_reset_next (hr : ¬ s.noReset) (h : step s = .next t) :
    ∃ rest, s.inbox = .blockReset :: rest ∧ t = blockReset { s with inbox := rest } := by
  obtain ⟨rest, hi⟩ := List.head?_eq_some_iff.1 (not_not.1 hr)
  rw [step_cons hi] at h
  cases h
  exact ⟨rest, hi, rfl⟩

/-! ### The lock (R20) -/

/-- Once locked, ENC stays locked and keeps its configuration under every command. -/
theorem exec_keeps_locked_cfg {i : Instr} (h : exec i s = .next t) (hl : s.cfgLock = true) :
    t.cfgLock = true ∧ t.cfg = s.cfg := by
  obtain ⟨-, ⟨c, rfl⟩ | ⟨idx, v, r, -, hfree, -⟩ | ⟨r, g, b, -, -, rfl⟩ | ⟨w, f, -, -, rfl⟩⟩ := exec_next_cases h
  · exact ⟨hl, rfl⟩
  · rw [hl] at hfree
    cases hfree
  · exact ⟨rfl, rfl⟩
  · exact ⟨hl, rfl⟩

/-- Once locked, ENC stays locked and keeps its configuration whatever a step other than block reset does to it. -/
theorem EncMove.keeps_locked_cfg (h : EncMove s t) (hl : s.cfgLock = true) : t.cfgLock = true ∧ t.cfg = s.cfg := by
  cases h with
  | kept h => exact ⟨(cfgLock_of_enc h).trans hl, cfg_of_enc h⟩
  | ran i u v hu hrun ht =>
    obtain ⟨hlock, hcfg⟩ := exec_keeps_locked_cfg hrun ((cfgLock_of_enc hu).trans hl)
    exact ⟨(cfgLock_of_enc ht).trans hlock, (cfg_of_enc ht).trans (hcfg.trans (cfg_of_enc hu))⟩
  | illegal cmd u hu hf ht =>
    have hlock : t.cfgLock = u.cfgLock := (cfgLock_of_enc ht).trans (raiseFault_cfgLock _ _ _)
    have hcfg : t.cfg = u.cfg := (cfg_of_enc ht).trans (raiseFault_cfg _ _ _)
    exact ⟨hlock.trans ((cfgLock_of_enc hu).trans hl), hcfg.trans (cfg_of_enc hu)⟩

/-- A `LOADC` that succeeds locks the configuration. -/
theorem exec_loadc_locks {r g b : Byte} (h : exec (.loadc r g b) s = .next t) (hok : t.fault = none) :
    t.cfgLock = true := by
  obtain ⟨-, ⟨c, -, rfl⟩ | hret⟩ := command_next h
  · cases hok
  · obtain ⟨-, hl⟩ | ⟨-, hl⟩ := loadc_cases r g b s <;> rw [hl] at hret <;> cases hret
    rfl

/-- Only a `LOADC` that succeeds sets the lock. -/
theorem loadc_of_exec_sets_lock {i : Instr} (h : exec i s = .next t) (hs : s.cfgLock = false) (ht : t.cfgLock = true) :
    (∃ r g b, i = .loadc r g b) ∧ t.fault = none := by
  have hne : t.cfgLock ≠ s.cfgLock := by simp [hs, ht]
  obtain ⟨hf, ⟨c, rfl⟩ | ⟨idx, v, r, -, -, rfl⟩ | ⟨r, g, b, hi, -, rfl⟩ | ⟨w, f, -, -, rfl⟩⟩ := exec_next_cases h
  · exact absurd rfl hne
  · exact absurd rfl hne
  · exact ⟨⟨r, g, b, hi⟩, hf⟩
  · exact absurd rfl hne

/-- A `CFGW` of a register faults while the lock is set. -/
theorem exec_cfgw_locked {idx : BitVec 4} {v : CfgWord} (h : exec (.cfgw idx v) s = .next t) (hidx : idx.toNat ≤ 5)
    (hl : s.cfgLock = true) : t.fault = some .cfgLocked := by
  have hreg : (CfgReg.ofIndex idx).isSome = true := by simp [CfgReg.ofIndex_isSome, hidx]
  have hrule : cfgw idx v s = .error .cfgLocked := by
    obtain ⟨hnone, -⟩ | ⟨r, -, -, hc⟩ | ⟨r, -, hfree, -⟩ := cfgw_cases idx v s
    · simp [hnone] at hreg
    · exact hc
    · simp [hl] at hfree
  obtain ⟨-, ⟨c, hc, rfl⟩ | hret⟩ := command_next h
  · rw [hrule] at hc
    cases hc
    rfl
  · rw [hrule] at hret
    cases hret

end

/-- Settles O13: the lock's clauses about a command are read off the command's rule, the one about a step off what a step can do
to ENC. -/
theorem lockProtectsTheConfiguration : Obligations.LockProtectsTheConfiguration := by
  unfold Obligations.LockProtectsTheConfiguration
  refine ⟨rfl, ?_, ?_, ?_, ?_, ?_⟩
  · exact fun _ _ _ _ _ => exec_loadc_locks
  · exact fun _ _ _ => loadc_of_exec_sets_lock
  · exact fun _ _ hn hstep => (step_encMove hn hstep).keeps_locked_cfg
  · intro s t hr hstep
    obtain ⟨rest, -, rfl⟩ := step_reset_next hr hstep
    rfl
  · exact fun _ _ _ _ => exec_cfgw_locked

end Sys2Proof.Machine

namespace Sys2Proof

/-! ### When the decoder yields each command, said on the word as a number (R51) -/

/-- The opcode and the reserved bits right below it are one test on the upper part of the word. -/
theorem opcode_reserved_iff (n op : Nat) {lo k : Nat} (h : lo + k = 60) :
    n / 2 ^ 60 = op ∧ n / 2 ^ lo % 2 ^ k = 0 ↔ n / 2 ^ lo = op * 2 ^ k := by
  rw [← h, pow_add, ← Nat.div_div_eq_div_mul, Nat.div_mod_unique (by positivity), Nat.zero_add, Nat.mul_comm]
  simp [eq_comm]

section
variable (cmd : CmdWord)

theorem toNat_eq_iff_field_eq {n : Nat} (lo : Nat) (v : BitVec n) :
    v.toNat = cmd.toNat / 2 ^ lo % 2 ^ n ↔ field cmd lo n = v := by
  rw [field_eq_iff, eq_comm]

theorem toNat_eq_iff_field_zero_eq {n : Nat} (v : BitVec n) : v.toNat = cmd.toNat % 2 ^ n ↔ field cmd 0 n = v := by
  rw [← toNat_eq_iff_field_eq, pow_zero, Nat.div_one]

/-- `PULL`'s row: every other branch of the decoder fails the row's test. -/
theorem decode_eq_pull_iff (w f : CountWord) (d : Bool) : decode cmd = .cmd (.pull w f d) ↔
    cmd.toNat / 2 ^ 33 = 1 * 2 ^ 27 ∧ w.toNat = cmd.toNat / 2 ^ 16 % 2 ^ 16 ∧ f.toNat = cmd.toNat % 2 ^ 16 ∧
      d = decide (cmd.toNat / 2 ^ 32 % 2 = 1) := by
  rw [← opcode_reserved_iff _ _ rfl, toNat_eq_iff_field_eq, toNat_eq_iff_field_zero_eq, ← getLsbD_eq_decide,
    eq_comm (a := d), decode_eq]
  split_ifs
  · simp_all
  all_goals exact iff_of_false (by simp) (by omega)

/-- `LOADC`'s row: every other branch of the decoder fails the row's test. -/
theorem decode_eq_loadc_iff (r g b : Byte) : decode cmd = .cmd (.loadc r g b) ↔
    cmd.toNat / 2 ^ 24 = 2 * 2 ^ 36 ∧ r.toNat = cmd.toNat / 2 ^ 16 % 2 ^ 8 ∧ g.toNat = cmd.toNat / 2 ^ 8 % 2 ^ 8 ∧
      b.toNat = cmd.toNat % 2 ^ 8 := by
  rw [← opcode_reserved_iff _ _ rfl, toNat_eq_iff_field_eq, toNat_eq_iff_field_eq, toNat_eq_iff_field_zero_eq, decode_eq]
  split_ifs
  pick_goal 3
  · simp_all
  all_goals exact iff_of_false (by simp) (by omega)

/-- `CFGW`'s row, with the register's bound said on the word first, as the decoder tests it: every other branch fails the row's
tests. -/
theorem decode_eq_cfgw_iff (idx : BitVec 4) (v : CfgWord) : decode cmd = .cmd (.cfgw idx v) ↔
    cmd.toNat / 2 ^ 36 = 3 * 2 ^ 24 ∧ idx.toNat = cmd.toNat / 2 ^ 32 % 2 ^ 4 ∧ idx.toNat ≤ 5 ∧
      v.toNat = cmd.toNat % 2 ^ 32 := by
  have hbound : idx.toNat = cmd.toNat / 2 ^ 32 % 2 ^ 4 ∧ idx.toNat ≤ 5 ∧ v.toNat = cmd.toNat % 2 ^ 32 ↔
      cmd.toNat / 2 ^ 32 % 2 ^ 4 ≤ 5 ∧ idx.toNat = cmd.toNat / 2 ^ 32 % 2 ^ 4 ∧ v.toNat = cmd.toNat % 2 ^ 32 := by
    omega
  rw [hbound, ← opcode_reserved_iff _ _ rfl, toNat_eq_iff_field_eq, toNat_eq_iff_field_zero_eq, decode_eq]
  split_ifs
  pick_goal 5
  · simp_all
  all_goals exact iff_of_false (by simp) (by omega)

theorem decode_illegal_iff_no_cmd : (∃ why, decode cmd = .illegal why) ↔ ∀ i, decode cmd ≠ .cmd i := by
  cases decode cmd <;> simp

/-- The decoder rejects exactly the words of R58's summary. -/
theorem decode_illegal_iff_reservedWord : (∃ why, decode cmd = .illegal why) ↔ Machine.reservedWord cmd := by
  simp only [Machine.reservedWord, List.mem_cons, List.not_mem_nil, or_false]
  rw [decode_eq]
  split_ifs
  case pos | pos | pos => exact iff_of_false (by simp) (by omega)
  all_goals exact iff_of_true ⟨_, rfl⟩ (by omega)

end

/-- Settles O3: one equivalence for each row of the bit table. -/
theorem decodeFollowsTheBitTable : Obligations.DecodeFollowsTheBitTable := by
  unfold Obligations.DecodeFollowsTheBitTable
  exact fun cmd => ⟨decode_eq_pull_iff cmd, decode_eq_loadc_iff cmd, decode_eq_cfgw_iff cmd, decode_illegal_iff_no_cmd cmd⟩

end Sys2Proof

namespace Sys2Proof.Machine

/-- A rejected word raises `ILLEGAL_CMD` on an ENC that takes commands (R102). -/
theorem encStep_illegal {cmd : CmdWord} {why : IllegalWord} {s : State} (hd : decode cmd = .illegal why)
    (hf : s.fault = none) : encStep cmd s = .next (raiseFault .illegalCmd cmd s) := by
  simp only [encStep, hd, command_error hf]

/-- Settles O4: the decoder's rejections are the reserved words, and a rejected word on the port raises `ILLEGAL_CMD`. -/
theorem reservedWordsFaultIllegalCmd : Obligations.ReservedWordsFaultIllegalCmd := by
  unfold Obligations.ReservedWordsFaultIllegalCmd
  refine ⟨decode_illegal_iff_reservedWord, fun s cmd rest hs hi hcmd => ?_⟩
  obtain ⟨why, hwhy⟩ := (decode_illegal_iff_reservedWord cmd).2 hcmd
  rw [step_cons hi]
  exact encStep_illegal hwhy hs

end Sys2Proof.Machine

namespace Sys2Proof.Machine

/-! ### The ROM's entries, durations included (R63 to R65) -/

section
variable (c : Cfg)

theorem rom_zero : rom c .zero =
    { lvl0 := true, dur0 := ticks c.tickHz c.t0hNs, lvl1 := false, dur1 := ticks c.tickHz c.t0lNs } := rfl

theorem rom_one : rom c .one =
    { lvl0 := true, dur0 := ticks c.tickHz c.t1hNs, lvl1 := false, dur1 := ticks c.tickHz c.t1lNs } := rfl

theorem rom_reset : rom c .reset =
    { lvl0 := false, dur0 := c.resetTicks - c.resetTicks / 2, lvl1 := false, dur1 := c.resetTicks / 2 } := rfl

/-- RESET's first part is what its halved second part leaves of `Rt`, an odd tick included. -/
theorem rom_reset_total : (rom c .reset).total = c.resetTicks :=
  Nat.sub_add_cancel (Nat.div_le_self _ _)

end

/-- Settles O15: the ROM's entries, their ticks spelled by R62. -/
theorem romHoldsTheThreeSymbols : Obligations.RomHoldsTheThreeSymbols := by
  unfold Obligations.RomHoldsTheThreeSymbols
  intro c t
  have ht (ns : CfgWord) : t ns = ticks c.tickHz ns := (ticks_eq _ ns).symm
  simp only [ht]
  exact ⟨rom_zero c, rom_one c, rom_reset c, rom_reset_total c⟩

end Sys2Proof.Machine

namespace Sys2Proof.Machine

/-! ### The data arm of `PULL` (R74, R76) -/

/-- A payload bit selects `ONE` when set and `ZERO` when clear (R53). -/
theorem RomIndex.ofBit_eq_ite (b : Bool) : RomIndex.ofBit b = if b then .one else .zero := by
  cases b <;> rfl

/-- Slot `k` of a data call carries the symbol of bit `7 - k`: the most significant bit comes first (R33, R76). -/
theorem byteSymbols_eq_map_range (c : Cfg) (byte : Byte) :
    byteSymbols c byte = (List.range 8).map fun k => rom c (if byte.getLsbD (7 - k) then .one else .zero) := by
  simp only [← RomIndex.ofBit_eq_ite]
  rfl

/-- The payload can be read only behind its written mark (R30). -/
theorem written_of_memReadP {p : Payload} {i : Nat} {byte : Byte} (h : memReadP p i = some byte) : p.written = true := by
  cases hp : p.written with
  | true => rfl
  | false =>
    rw [memReadP_unwritten hp] at h
    cases h

/-- Eight slots and a cursor inside the payload take the data arm (R74). -/
theorem pullArm_data {w f : Nat} (hw : w % 8 = 0) (hlt : w / 8 < 3) (hf : 8 ≤ f) : pullArm w f = .data := by
  obtain ⟨-, hstall⟩ | ⟨harm, -, -⟩ | ⟨-, -, hend⟩ := pullArm_cases f hw (Nat.le_of_lt hlt)
  · omega
  · exact harm
  · omega

/-- Settles O20: the checks pass, the cursor takes the data arm, and that arm's slots are the byte's bits from bit 7 down. -/
theorem pullSendsOneByte : Obligations.PullSendsOneByte := by
  unfold Obligations.PullSendsOneByte
  intro s w f byte hs hw hlt hread hf hcap
  have hpass : pullCheck s.par.cap s.payload w.toNat f.toNat false = none :=
    pullCheck_pass (written_of_memReadP hread) hw (Nat.le_of_lt hlt) hcap
  rw [exec_pull_pass hs hpass, pullArm_data hw hlt hf, pullSlots_data hread, byteSymbols_eq_map_range]
  rfl

end Sys2Proof.Machine

namespace Sys2Proof.Machine

/-! ### A symbol on the line (R84)

The ticks of a symbol are one argument, whether PG is about to begin it or is in the middle of it: what matters is that the next
tick is a `playTick` of it. -/

/-- The symbol's two parts are its levels tick by tick. -/
theorem replicate_parts_eq_map_levelAt (x : Symbol) :
    List.replicate x.dur0 x.lvl0 ++ List.replicate x.dur1 x.lvl1 = (List.range x.total).map x.levelAt := by
  apply List.ext_getElem
  · simp [Symbol.total]
  · intro i _ _
    simp [List.getElem_append, Symbol.levelAt]

section
variable (x : Symbol) (e : Nat) (s : State)

@[simp] theorem playTick_line : (playTick x e s).line = x.levelAt e := by
  unfold playTick
  split <;> rfl

@[simp] theorem playTick_en : (playTick x e s).en = s.en := by
  rw [playTick_frame]

end

section
variable {x : Symbol} {e : Nat} {s : State}

theorem playTick_play (h : e + 1 < x.total) : (playTick x e s).play = .playing x (e + 1) := by
  simp [playTick, h]

theorem pgTick_playing (hen : s.en = true) (hp : s.play = .playing x e) : pgTick s = playTick x e s := by
  simp [pgTick, hen, hp]

theorem pgTick_idle (hen : s.en = true) (hp : s.play = .idle) : pgTick s = startTick s := by
  simp [pgTick, hen, hp]

theorem startTick_cons {rest : List Symbol} (hr : s.ring = x :: rest) (hx : 0 < x.total) :
    startTick s = playTick x 0 { s with ring := rest } := by
  simp [startTick, hr, takeHead_pos hx]

/-- A tick is PG's, but for HOST's count of its wait. -/
theorem tick_eq_pgTick (s : State) : ∃ n, tick s = pgTick { s with waited := n } := by
  unfold tick
  split
  · exact ⟨_, rfl⟩
  · exact ⟨s.waited, rfl⟩

/-- The next tick is tick `e` of the symbol `x`, on an enabled channel. -/
def State.plays (s : State) (x : Symbol) (e : Nat) : Prop := ∃ u : State, u.en = true ∧ tick s = playTick x e u

theorem plays_of_playing (hen : s.en = true) (hp : s.play = .playing x e) : s.plays x e := by
  obtain ⟨n, ht⟩ := tick_eq_pgTick s
  exact ⟨{ s with waited := n }, hen, ht.trans (pgTick_playing hen hp)⟩

theorem plays_of_idle {rest : List Symbol} (hen : s.en = true) (hp : s.play = .idle) (hr : s.ring = x :: rest)
    (hx : 0 < x.total) : s.plays x 0 := by
  obtain ⟨n, ht⟩ := tick_eq_pgTick s
  exact ⟨{ s with waited := n, ring := rest }, hen,
    ht.trans ((pgTick_idle (s := { s with waited := n }) hen hp).trans (startTick_cons hr hx))⟩

theorem State.plays.tick_line (h : s.plays x e) : (tick s).line = x.levelAt e := by
  obtain ⟨u, -, ht⟩ := h
  rw [ht, playTick_line]

theorem State.plays.tick_plays (h : s.plays x e) (he : e + 1 < x.total) : (tick s).plays x (e + 1) := by
  obtain ⟨u, hen, ht⟩ := h
  rw [ht]
  exact plays_of_playing ((playTick_en x e u).trans hen) (playTick_play he)

/-- While a symbol lasts, the line shows its levels in order. -/
theorem lineTrace_of_plays (n : Nat) (h : s.plays x e) (hn : e + n ≤ x.total) :
    lineTrace n s = (List.range' e n).map x.levelAt := by
  induction n generalizing s e with
  | zero => rfl
  | succ n ih =>
    rw [lineTrace, h.tick_line, List.range'_succ, List.map_cons]
    cases n with
    | zero => rfl
    | succ m => rw [ih (h.tick_plays (by omega)) (by omega)]

/-- The ticks that are left of a symbol show what is left of its parts; there are none if it is over. -/
theorem lineTrace_rest_of_symbol (h : e < x.total → s.plays x e) :
    lineTrace (x.total - e) s = (List.replicate x.dur0 x.lvl0 ++ List.replicate x.dur1 x.lvl1).drop e := by
  rw [replicate_parts_eq_map_levelAt, ← List.map_drop, List.range_eq_range', List.drop_range', Nat.zero_add, Nat.mul_one]
  rcases Nat.lt_or_ge e x.total with he | he
  · exact lineTrace_of_plays _ (h he) (by omega)
  · rw [Nat.sub_eq_zero_of_le he]
    rfl

end

/-- Settles O32: PG plays the head of `RING` from its first tick, and a symbol in play from where it stands. -/
theorem symbolIsPlayedPartByPart : Obligations.SymbolIsPlayedPartByPart := by
  unfold Obligations.SymbolIsPlayedPartByPart
  refine ⟨fun s x rest hen hp hr => ?_, fun s x e hen hp => ?_⟩
  · exact lineTrace_rest_of_symbol (e := 0) (plays_of_idle hen hp hr)
  · exact lineTrace_rest_of_symbol fun _ => plays_of_playing hen hp

end Sys2Proof.Machine

namespace Sys2Proof.Machine

/-! ### What leaves the power line alone (R98) -/

section
variable (s : State)

@[simp] theorem disable_power : (disable s).power = s.power := by
  rw [disable_frame]

@[simp] theorem failTransmission_power : (failTransmission s).power = s.power := disable_power s

@[simp] theorem completeTransmission_power : (completeTransmission s).power = s.power := disable_power s

@[simp] theorem tick_power : (tick s).power = s.power := by
  obtain ⟨n, ht⟩ := tick_eq_pgTick s
  rw [ht, pgTick_frame]

@[simp] theorem waitForDrain_power (d : Bool) : (waitForDrain d s).power = s.power := by
  obtain h | ⟨-, -, h⟩ | ⟨-, -, -, -, -, h⟩ := waitForDrain_cases d s <;> simp [h]

@[simp] theorem hostAbsorb_power (i : Instr) : (hostAbsorb i s).power = s.power := by
  rw [hostAbsorb_frame]

end

section
variable {s t : State}

theorem exec_power {i : Instr} (h : exec i s = .next t) : t.power = s.power := by
  obtain ⟨-, ⟨c, rfl⟩ | ⟨idx, v, r, -, -, rfl⟩ | ⟨r, g, b, -, -, rfl⟩ | ⟨w, f, -, -, rfl⟩⟩ := exec_next_cases h <;> rfl

theorem encStep_power {cmd : CmdWord} (h : encStep cmd s = .next t) : t.power = s.power := by
  unfold encStep at h
  split at h
  · exact exec_power h
  · obtain ⟨-, ⟨c, -, rfl⟩ | hok⟩ := command_next h
    · rfl
    · cases hok

theorem hostRun_power {i : Instr} (h : hostRun i s = .next t) : t.power = s.power := by
  obtain ⟨v, hrun, rfl⟩ := hostRun_next h
  exact (hostAbsorb_power v i).trans (exec_power hrun)

theorem hostIssue_power {cmd : CmdWord} (h : hostIssue cmd s = .next t) : t.power = s.power := by
  unfold hostIssue at h
  split at h
  · exact encStep_power h
  · split at h
    · cases h
      rfl
    · exact hostRun_power h

theorem startTransmission_power {r g b : Byte} {submitFails : Bool}
    (h : startTransmission r g b submitFails s = .next t) : t.power = s.power := by
  unfold startTransmission at h
  split at h
  · cases h
    rfl
  · split at h
    · cases h
      exact failTransmission_power _
    · exact (hostRun_power h).trans rfl

theorem pullRound_power {free : CountWord} (h : pullRound free s = .next t) : t.power = s.power := by
  unfold pullRound at h
  split at h
  · exact hostIssue_power h
  · cases h
    rfl

theorem bootStep_power {before after : Boot} {ok : Bool} (h : bootStep before after ok s = .next t) :
    t.power = s.power := by
  unfold bootStep at h
  split at h <;> cases h
  rfl

/-- Only the two power operations, boot step 1 and block reset touch the power line. -/
theorem runEvent_power {e : Event} (hreset : e ≠ .blockReset) (hpower : ∀ on ok, e ≠ .power on ok)
    (hgpio : ∀ ok, e ≠ .acquireGpio ok) (h : runEvent e s = .next t) : t.power = s.power := by
  cases e with
  | port cmd => exact encStep_power h
  | issue cmd => exact hostIssue_power (hostAct_next h).2
  | cfgTiming hz t0h t0l t1h t1l rst =>
    cases (hostAct_next h).2
    rfl
  | setColor r g b submitFails => exact startTransmission_power (hostAct_next h).2
  | pull free => exact pullRound_power (hostAct_next h).2
  | drain drainFails =>
    cases (hostAct_next h).2
    exact waitForDrain_power s drainFails
  | acquireGpio ok => exact absurd rfl (hgpio ok)
  | configureChannel ok => exact bootStep_power h
  | power on ok => exact absurd rfl (hpower on ok)
  | tick =>
    cases h
    exact tick_power s
  | blockReset => exact absurd rfl hreset

/-- A step that is none of those four keeps the power line. -/
theorem step_power (hn : s.noReset) (h : step s = .next t) (hpower : ∀ on ok rest, s.inbox ≠ .power on ok :: rest)
    (hgpio : ∀ ok rest, s.inbox ≠ .acquireGpio ok :: rest) : t.power = s.power := by
  cases hi : s.inbox with
  | nil =>
    rw [step_nil hi] at h
    cases h
    exact tick_power s
  | cons e rest =>
    rw [step_cons hi] at h
    refine (runEvent_power ?_ ?_ ?_ h).trans rfl
    · rintro rfl
      simp [State.noReset, hi] at hn
    · rintro on ok rfl
      exact hpower on ok rest hi
    · rintro ok rfl
      exact hgpio ok rest hi

/-- A power operation whose write succeeds sets the line and nothing else. -/
theorem step_power_ok {on : Bool} {rest : List Event} (hi : s.inbox = .power on true :: rest) :
    step s = .next { s with inbox := rest, power := on } :=
  step_cons hi

theorem step_power_failed {on : Bool} {rest : List Event} (hi : s.inbox = .power on false :: rest) :
    step s = .fault .gpioFailed :=
  step_cons hi

/-- A run's first step, when it goes on. -/
theorem run_succ_of_step (n : Nat) (h : step s = .next t) :
    Host.Core.run Sys2Proof.core (n + 1) s = Host.Core.run Sys2Proof.core n t := by
  have hcore : Sys2Proof.core.step s = .next t := h
  simp only [Host.Core.run, hcore]

end

/-- Settles O48: off and then on is two writes in a row, and every other step keeps the line. -/
theorem powerLineIsIndependent : Obligations.PowerLineIsIndependent := by
  unfold Obligations.PowerLineIsIndependent
  refine ⟨fun s rest hi => ?_, fun _ _ _ => step_power_ok, fun _ _ => step_power, fun _ _ _ => step_power_failed⟩
  rw [run_succ_of_step 1 (step_power_ok hi), run_succ_of_step 0 (step_power_ok rfl)]
  rfl

end Sys2Proof.Machine

namespace Sys2Proof

/-- The word a command decodes from is the command's own encoding: `FAULT_CMD` holds the very word (R24, R104). -/
theorem encode_of_decode {cmd : CmdWord} {i : Instr} (h : decode cmd = .cmd i) : encode i = cmd := by
  rw [← BitVec.toNat_inj]
  cases i with
  | pull w f d =>
    obtain ⟨hop, hw, hf, rfl⟩ := (decode_eq_pull_iff cmd w f d).1 h
    have hbit : (decide (cmd.toNat / 2 ^ 32 % 2 = 1)).toNat = cmd.toNat / 2 ^ 32 % 2 := by
      rcases Nat.mod_two_eq_zero_or_one (cmd.toNat / 2 ^ 32) with hb | hb <;> rw [hb] <;> rfl
    rw [encode_pull_toNat, hbit]
    omega
  | loadc r g b =>
    obtain ⟨hop, hr, hg, hb⟩ := (decode_eq_loadc_iff cmd r g b).1 h
    rw [encode_loadc_toNat]
    omega
  | cfgw idx v =>
    obtain ⟨hop, hidx, -, hv⟩ := (decode_eq_cfgw_iff cmd idx v).1 h
    rw [encode_cfgw_toNat]
    omega

end Sys2Proof

namespace Sys2Proof.Machine

/-! ### What a fault writes (R104)

On ENC's port and in HOST's commands a fault is `raiseFault` with the very word, and nothing else; in HOST's steps ENC is left as
`raiseFault` leaves it. -/

section
variable {s t : State} {c : EncFault}

theorem fault_of_enc (h : t.enc = s.enc) : t.fault = s.fault := congrArg Enc.fault h

theorem faultCmd_of_enc (h : t.enc = s.enc) : t.faultCmd = s.faultCmd := congrArg Enc.faultCmd h

/-- A step that leaves ENC as it is raises no fault. -/
theorem not_fault_of_enc (hs : s.fault = none) (h : t.enc = s.enc) : t.fault ≠ some c := by
  rw [fault_of_enc h, hs]
  nofun

theorem enc_eq_raiseFault_iff {cmd : CmdWord} : t.enc = (raiseFault c cmd s).enc ↔
    t.cfg = s.cfg ∧ t.cfgLock = s.cfgLock ∧ t.payload = s.payload ∧ t.fault = some c ∧ t.faultCmd = cmd ∧
      t.rsp = some (Response.faulted c) := by
  simp [State.enc]

/-- A command that ends with `FAULT` set has raised it, and done nothing else. -/
theorem exec_fault {i : Instr} (h : exec i s = .next t) (hc : t.fault = some c) : t = raiseFault c (encode i) s := by
  obtain ⟨hs, ⟨c', rfl⟩ | ⟨idx, v, r, -, -, rfl⟩ | ⟨r, g, b, -, -, rfl⟩ | ⟨w, f, -, -, rfl⟩⟩ := exec_next_cases h
  · cases hc
    rfl
  all_goals
    rw [respond_fault, hs] at hc
    cases hc

theorem encStep_fault {cmd : CmdWord} (h : encStep cmd s = .next t) (hc : t.fault = some c) :
    t = raiseFault c cmd s := by
  unfold encStep at h
  split at h
  · next i hi =>
    rw [exec_fault h hc, encode_of_decode hi]
  · obtain ⟨-, ⟨c', hc', rfl⟩ | hok⟩ := command_next h
    · cases hc
      rfl
    · cases hok

theorem hostRun_fault {i : Instr} (h : hostRun i s = .next t) (hc : t.fault = some c) :
    t = raiseFault c (encode i) s := by
  obtain ⟨v, hrun, rfl⟩ := hostRun_next h
  rw [fault_of_enc (hostAbsorb_enc v i)] at hc
  rw [exec_fault hrun hc, hostAbsorb_raiseFault]

theorem hostIssue_fault {cmd : CmdWord} (hs : s.fault = none) (h : hostIssue cmd s = .next t) (hc : t.fault = some c) :
    t = raiseFault c cmd s := by
  unfold hostIssue at h
  split at h
  · exact encStep_fault h hc
  · next i hi =>
    split at h
    · cases h
      exact absurd hc (not_fault_of_enc hs rfl)
    · rw [hostRun_fault h hc, encode_of_decode hi]

theorem startTransmission_fault {r g b : Byte} {submitFails : Bool} (hs : s.fault = none)
    (h : startTransmission r g b submitFails s = .next t) (hc : t.fault = some c) :
    submitFails = false ∧ t.enc = (raiseFault c (encode (.loadc r g b)) s).enc := by
  unfold startTransmission at h
  split at h
  · cases h
    exact absurd hc (not_fault_of_enc hs rfl)
  · split at h
    · cases h
      exact absurd hc (not_fault_of_enc hs (failTransmission_enc _))
    · next hsubmit =>
      rw [hostRun_fault h hc]
      exact ⟨Bool.eq_false_of_not_eq_true hsubmit, rfl⟩

theorem pullRound_fault {free : CountWord} (hs : s.fault = none) (h : pullRound free s = .next t)
    (hc : t.fault = some c) : t = raiseFault c (encode (.pull (BitVec.ofNat 16 s.w) free false)) s := by
  unfold pullRound at h
  split at h
  · next hround =>
    obtain ⟨-, hdone⟩ : s.active = true ∧ s.done = false := by simpa using hround
    rw [hostIssue_fault hs h hc, hdone]
  · cases h
    exact absurd hc (not_fault_of_enc hs rfl)

/-- The events that hand ENC a command word, with HOST's cursor at `w` (R91, R94). -/
inductive Event.HandsWord (w : Nat) : Event → CmdWord → Prop where
  | port (cmd : CmdWord) : HandsWord w (.port cmd) cmd
  | issue (cmd : CmdWord) : HandsWord w (.issue cmd) cmd
  | pull (free : CountWord) : HandsWord w (.pull free) (encode (.pull (BitVec.ofNat 16 w) free false))
  | setColor (r g b : Byte) : HandsWord w (.setColor r g b false) (encode (.loadc r g b))

/-- An event that ends with `FAULT` set has handed ENC a word, and ENC has raised the fault on that word. -/
theorem runEvent_fault {e : Event} (hs : s.fault = none) (h : runEvent e s = .next t) (hc : t.fault = some c) :
    ∃ cmd, e.HandsWord s.w cmd ∧ t.enc = (raiseFault c cmd s).enc := by
  cases e with
  | port cmd => exact ⟨cmd, .port cmd, by rw [encStep_fault h hc]⟩
  | issue cmd => exact ⟨cmd, .issue cmd, by rw [hostIssue_fault hs (hostAct_next h).2 hc]⟩
  | cfgTiming hz t0h t0l t1h t1l rst =>
    cases (hostAct_next h).2
    exact absurd hc (not_fault_of_enc hs rfl)
  | setColor r g b submitFails =>
    obtain ⟨rfl, henc⟩ := startTransmission_fault hs (hostAct_next h).2 hc
    exact ⟨_, .setColor r g b, henc⟩
  | pull free => exact ⟨_, .pull free, by rw [pullRound_fault hs (hostAct_next h).2 hc]⟩
  | drain drainFails =>
    cases (hostAct_next h).2
    exact absurd hc (not_fault_of_enc hs (waitForDrain_enc s drainFails))
  | acquireGpio ok => exact absurd hc (not_fault_of_enc hs (acquireGpio_enc h))
  | configureChannel ok => exact absurd hc (not_fault_of_enc hs (bootStep_enc h))
  | power on ok => exact absurd hc (not_fault_of_enc hs (setPower_enc h))
  | tick =>
    cases h
    exact absurd hc (not_fault_of_enc hs (tick_enc s))
  | blockReset =>
    cases h
    cases hc

/-- A step that ends with `FAULT` set has taken an event that hands ENC a word, and ENC has raised the fault on that word. -/
theorem step_fault (hs : s.fault = none) (h : step s = .next t) (hc : t.fault = some c) :
    ∃ e rest cmd, s.inbox = e :: rest ∧ e.HandsWord s.w cmd ∧ t.enc = (raiseFault c cmd s).enc := by
  cases hi : s.inbox with
  | nil =>
    rw [step_nil hi] at h
    cases h
    exact absurd hc (not_fault_of_enc hs (tick_enc s))
  | cons e rest =>
    rw [step_cons hi] at h
    obtain ⟨cmd, hcmd, henc⟩ := runEvent_fault (s := { s with inbox := rest }) hs h hc
    exact ⟨e, rest, cmd, rfl, hcmd, henc⟩

end

/-- Settles O27: on the port the step is ENC's own, which raises on the very word; in any other step ENC is left as `raiseFault`
leaves it on the word the event hands over. -/
theorem faultsArePrecise : Obligations.FaultsArePrecise := by
  unfold Obligations.FaultsArePrecise
  refine ⟨fun s cmd rest t c _ hi hstep hc => ?_, fun s t c hs hstep hc => ?_⟩
  · rw [step_cons hi] at hstep
    exact encStep_fault hstep hc
  · obtain ⟨e, rest, cmd, hi, hcmd, henc⟩ := step_fault hs hstep hc
    obtain ⟨hcfg, hlock, hpayload, -, rfl, hrsp⟩ := enc_eq_raiseFault_iff.1 henc
    refine ⟨hcfg, hlock, hpayload, hrsp, rest, ?_⟩
    rw [hi]
    generalize t.faultCmd = cmd at hcmd ⊢
    cases hcmd with
    | port => exact .inl rfl
    | issue => exact .inr (.inl rfl)
    | pull free => exact .inr (.inr (.inl ⟨free, rfl, rfl⟩))
    | setColor r g b => exact .inr (.inr (.inr ⟨r, g, b, rfl, rfl⟩))

/-! ### A faulted ENC (R105) -/

section
variable {s t : State} {c : EncFault}

theorem encStep_stuck (cmd : CmdWord) (hs : s.fault = some c) : encStep cmd s = .fault .encStuck := by
  unfold encStep
  split
  · exact exec_stuck _ hs
  · exact command_stuck hs

/-- Neither HOST's commands nor its routines have a step after a fault response (R91). -/
theorem hostAct_stuck (act : Host.Outcome State Fault Refusal) (hs : s.fault = some c) :
    hostAct s act = .fault .encStuck := by
  simp [hostAct, hs]

/-- With `FAULT` set, no step but block reset changes anything of ENC. -/
theorem EncMove.enc_of_fault (h : EncMove s t) (hs : s.fault = some c) : t.enc = s.enc := by
  cases h with
  | kept h => exact h
  | ran i u v hu hrun ht =>
    rw [exec_stuck i ((fault_of_enc hu).trans hs)] at hrun
    cases hrun
  | illegal cmd u hu hf ht =>
    rw [fault_of_enc hu, hs] at hf
    cases hf

@[simp] theorem tick_ret (s : State) : (tick s).ret = s.ret := by
  obtain ⟨n, ht⟩ := tick_eq_pgTick s
  rw [ht, pgTick_frame]

theorem bootStep_ret {before after : Boot} {ok : Bool} (h : bootStep before after ok s = .next t) : t.ret = s.ret := by
  unfold bootStep at h
  split at h <;> cases h
  rfl

theorem acquireGpio_ret {ok : Bool} (h : acquireGpio ok s = .next t) : t.ret = s.ret := by
  obtain ⟨-, rfl⟩ := acquireGpio_next h
  rfl

theorem setPower_ret {on ok : Bool} (h : setPower on ok s = .next t) : t.ret = s.ret := by
  unfold setPower at h
  split at h <;> cases h
  rfl

/-- With `FAULT` set, a transmission cannot return: HOST's events are stuck, and the others leave what it returned. -/
theorem runEvent_ret_of_fault {e : Event} (he : e ≠ .blockReset) (hs : s.fault = some c) (h : runEvent e s = .next t) :
    t.ret = s.ret := by
  cases e with
  | port cmd => cases (encStep_stuck cmd hs).symm.trans h
  | issue | cfgTiming | setColor | pull | drain => cases (hostAct_stuck _ hs).symm.trans h
  | acquireGpio ok => exact acquireGpio_ret h
  | configureChannel ok => exact bootStep_ret h
  | power on ok => exact setPower_ret h
  | tick =>
    cases h
    exact tick_ret s
  | blockReset => exact absurd rfl he

theorem step_ret_of_fault (hn : s.noReset) (hs : s.fault = some c) (h : step s = .next t) : t.ret = s.ret := by
  cases hi : s.inbox with
  | nil =>
    rw [step_nil hi] at h
    cases h
    exact tick_ret s
  | cons e rest =>
    rw [step_cons hi] at h
    refine runEvent_ret_of_fault (s := { s with inbox := rest }) ?_ hs h
    rintro rfl
    simp [State.noReset, hi] at hn

end

/-- Settles O28: every way to ENC is stuck on a set `FAULT`, the steps that are not leave ENC and HOST's return value alone, and
block reset goes back to the initial state. -/
theorem faultsAreSticky : Obligations.FaultsAreSticky := by
  unfold Obligations.FaultsAreSticky
  refine fun s c hs => ⟨fun i => exec_stuck i hs, ?_, fun t hn hstep => ?_, fun t hr hstep => ?_⟩
  · rintro cmd rest (hi | hi) <;> rw [step_cons hi]
    · exact encStep_stuck cmd hs
    · exact hostAct_stuck _ hs
  · have henc : t.enc = s.enc := (step_encMove hn hstep).enc_of_fault hs
    exact ⟨fault_of_enc henc, faultCmd_of_enc henc, step_ret_of_fault hn hs hstep⟩
  · obtain ⟨rest, -, rfl⟩ := step_reset_next hr hstep
    rfl

end Sys2Proof.Machine

namespace Sys2Proof

/-! ### Decoding and encoding undo each other (R51) -/

/-- The word of a well-formed command decodes to the command: its fields stand in their places. -/
theorem decode_encode {i : Instr} (h : i.wellFormed = true) : decode (encode i) = .cmd i := by
  cases i with
  | pull w f d =>
    have hw := w.isLt
    have hf := f.isLt
    rw [decode_eq_pull_iff, encode_pull_toNat]
    cases d <;> simp <;> omega
  | loadc r g b =>
    have hr := r.isLt
    have hg := g.isLt
    have hb := b.isLt
    rw [decode_eq_loadc_iff, encode_loadc_toNat]
    omega
  | cfgw idx v =>
    have hidx : idx.toNat ≤ 5 := of_decide_eq_true h
    have hv := v.isLt
    rw [decode_eq_cfgw_iff, encode_cfgw_toNat]
    omega

/-- Settles O5: the fields of the command's word, read off it as a number, are the operands. -/
theorem decodeEncodeRoundTrip : Obligations.DecodeEncodeRoundTrip := by
  unfold Obligations.DecodeEncodeRoundTrip
  exact fun _ => decode_encode

/-- The decoder yields well-formed commands only: it tests a `CFGW`'s register. -/
theorem wellFormed_of_decode {cmd : CmdWord} {i : Instr} (h : decode cmd = .cmd i) : i.wellFormed = true := by
  cases i with
  | pull w f d => rfl
  | loadc r g b => rfl
  | cfgw idx v =>
    obtain ⟨-, -, hidx, -⟩ := (decode_eq_cfgw_iff cmd idx v).1 h
    exact decide_eq_true hidx

/-- Settles O6: a word that decodes is the decoded command's own, and the decoder tests what well-formedness asks. -/
theorem encodeDecodeRoundTrip : Obligations.EncodeDecodeRoundTrip := by
  unfold Obligations.EncodeDecodeRoundTrip
  exact fun _ _ h => ⟨encode_of_decode h, wellFormed_of_decode h⟩

/-- Settles O7: the decoder runs on each of the words. -/
theorem specWordsDecode : Obligations.SpecWordsDecode := by
  unfold Obligations.SpecWordsDecode
  decide

end Sys2Proof

namespace Sys2Proof.Machine

/-! ### Writing a command as a line (R60)

A list of tokens is spelled with a blank behind each word, and a number in decimal; the assembler reads both back. -/

/-- The letters of a word: none of the characters that end one. -/
def asmLetter (c : Char) : Bool := c ∉ [';', ' ', '\t', '\r', ',', '=']

/-- A token as text. -/
def AsmTok.spell : AsmTok → List Char
  | .word cs => cs ++ [' ']
  | .comma => [',']
  | .eq => ['=']

/-- A word that can be written: not empty, and of letters only. -/
def AsmTok.writable : AsmTok → Bool
  | .word cs => !cs.isEmpty && cs.all asmLetter
  | .comma => true
  | .eq => true

theorem flushWord_of_ne_nil {cs : List Char} (h : cs ≠ []) : flushWord cs = [.word cs] := by
  cases cs with
  | nil => exact absurd rfl h
  | cons c cs => rfl

/-- Letters are added to the word begun. -/
theorem asmTokens_letters {cs : List Char} (h : cs.all asmLetter = true) (acc rest : List Char) :
    asmTokens acc (cs ++ rest) = asmTokens (acc ++ cs) rest := by
  induction cs generalizing acc with
  | nil => simp
  | cons c cs ih =>
    obtain ⟨hc, hcs⟩ : asmLetter c = true ∧ cs.all asmLetter = true := by simpa using h
    simp only [asmLetter, List.mem_cons, List.not_mem_nil, or_false, not_or, decide_eq_true_eq] at hc
    simp [asmTokens, hc, ih hcs]

/-- One token as text is read as that token. -/
theorem asmTokens_spell {tok : AsmTok} (h : tok.writable = true) (rest : List Char) :
    asmTokens [] (tok.spell ++ rest) = tok :: asmTokens [] rest := by
  cases tok with
  | word cs =>
    obtain ⟨hne, hcs⟩ : cs ≠ [] ∧ cs.all asmLetter = true := by simpa [AsmTok.writable] using h
    rw [AsmTok.spell, List.append_assoc, asmTokens_letters hcs]
    simp [asmTokens, flushWord_of_ne_nil hne]
  | comma => simp [AsmTok.spell, asmTokens, flushWord]
  | eq => simp [AsmTok.spell, asmTokens, flushWord]

/-- A line spelled token by token assembles to what the tokens parse to. -/
theorem assembleLine_spell {toks : List AsmTok} (h : toks.all AsmTok.writable = true) :
    assembleLine (toks.flatMap AsmTok.spell) = asmParse toks := by
  have htokens : asmTokens [] (toks.flatMap AsmTok.spell) = toks := by
    induction toks with
    | nil => rfl
    | cons tok toks ih =>
      obtain ⟨htok, htoks⟩ : tok.writable = true ∧ toks.all AsmTok.writable = true := by simpa using h
      rw [List.flatMap_cons, asmTokens_spell htok, ih htoks]
  rw [assembleLine, htokens]

/-! #### Decimal numbers -/

theorem digitValue_of_isDigit {c : Char} (h : c.isDigit = true) : digitValue c = some (c.toNat - 48) := by
  obtain ⟨h0, h9⟩ := Char.isDigit_iff_toNat.1 h
  exact if_pos ⟨h0, h9⟩

theorem asmLetter_of_isDigit {c : Char} (h : c.isDigit = true) : asmLetter c = true := by
  simp only [asmLetter, List.mem_cons, List.not_mem_nil, or_false, not_or, decide_eq_true_eq]
  refine ⟨?_, ?_, ?_, ?_, ?_, ?_⟩ <;> (rintro rfl; exact absurd h (by decide))

/-- The assembler adds up decimal digits as the library does. -/
theorem asmDigits_ten {cs : List Char} (h : ∀ c ∈ cs, c.isDigit = true) (n : Nat) :
    asmDigits 10 n cs = some (Nat.ofDigitChars 10 cs n) := by
  induction cs generalizing n with
  | nil => rfl
  | cons c cs ih =>
    obtain ⟨hc, hcs⟩ := List.forall_mem_cons.1 h
    have h9 : c.toNat ≤ 57 := (Char.isDigit_iff_toNat.1 hc).2
    have hlt : c.toNat - 48 < 10 := by omega
    simp only [asmDigits, digitValue_of_isDigit hc, if_pos hlt, ih hcs]
    rfl

/-- A text of decimal digits is no hexadecimal number. -/
theorem asmNumber_of_isDigit {cs : List Char} (hne : cs ≠ []) (h : ∀ c ∈ cs, c.isDigit = true) :
    asmNumber cs = asmDigits 10 0 cs := by
  match cs, hne with
  | [_], _ => rfl
  | c :: x :: rest, _ =>
    have hx : x ≠ 'x' := by
      rintro rfl
      exact absurd (h 'x' (by simp)) (by decide)
    simp [asmNumber, hx]

/-- The decimal digits of a number. -/
def asmDecimal (n : Nat) : List Char := Nat.toDigits 10 n

theorem asmDecimal_ne_nil (n : Nat) : asmDecimal n ≠ [] := Nat.toDigits_ne_nil

theorem isDigit_of_mem_asmDecimal {n : Nat} {c : Char} (h : c ∈ asmDecimal n) : c.isDigit = true :=
  Nat.isDigit_of_mem_toDigits (by decide) (by decide) h

theorem asmDecimal_letters (n : Nat) : (asmDecimal n).all asmLetter = true := by
  simp only [List.all_eq_true]
  exact fun c hc => asmLetter_of_isDigit (isDigit_of_mem_asmDecimal hc)

@[simp] theorem asmNumber_asmDecimal (n : Nat) : asmNumber (asmDecimal n) = some n := by
  have hdigits : ∀ c ∈ asmDecimal n, c.isDigit = true := fun _ => isDigit_of_mem_asmDecimal
  rw [asmNumber_of_isDigit (asmDecimal_ne_nil n) hdigits, asmDigits_ten hdigits]
  exact congrArg some Nat.ofDigitChars_ten_toDigits

theorem asmValue_asmDecimal {n limit : Nat} (h : n < limit) (rest : List AsmTok) :
    asmValue limit (.word (asmDecimal n) :: rest) = some (n, rest) := by
  simp [asmValue, h]

@[simp] theorem writable_asmDecimal (n : Nat) : (AsmTok.word (asmDecimal n)).writable = true := by
  simp [AsmTok.writable, asmDecimal_ne_nil, asmDecimal_letters]

/-- `#` and a decimal index name any register, a reserved one too. -/
theorem asmRegister_asmDecimal (idx : BitVec 4) : asmRegister ('#' :: asmDecimal idx.toNat) = some idx := by
  have h := idx.isLt
  simp [asmRegister, h]

theorem writable_register (n : Nat) : (AsmTok.word ('#' :: asmDecimal n)).writable = true := by
  have h : asmLetter '#' = true := by decide
  simp [AsmTok.writable, h, asmDecimal_letters]

/-! #### The lines of the commands -/

/-- `<key>=<number>` as tokens. -/
def keyedToks (key : List Char) (n : Nat) : List AsmTok := [.word key, .eq, .word (asmDecimal n)]

/-- A line of R60's language for each command. -/
def instrToks : Instr → List AsmTok
  | .pull w f d =>
    .word ['P', 'U', 'L', 'L'] :: keyedToks ['W'] w.toNat ++ .comma :: keyedToks ['F', 'R', 'E', 'E'] f.toNat ++
      .comma :: keyedToks ['D', 'O', 'N', 'E'] d.toNat
  | .loadc r g b =>
    .word ['L', 'O', 'A', 'D', 'C'] :: keyedToks ['R'] r.toNat ++ .comma :: keyedToks ['G'] g.toNat ++
      .comma :: keyedToks ['B'] b.toNat
  | .cfgw idx v =>
    [.word ['C', 'F', 'G', 'W'], .word ('#' :: asmDecimal idx.toNat), .comma, .word (asmDecimal v.toNat)]

theorem asmKeyed_keyedToks {key : List Char} {n limit : Nat} (h : n < limit) (rest : List AsmTok) :
    asmKeyed key limit (keyedToks key n ++ rest) = some (n, rest) := by
  simp [keyedToks, asmKeyed, asmValue_asmDecimal h]

theorem instrToks_writable (i : Instr) : (instrToks i).all AsmTok.writable = true := by
  cases i with
  | pull w f d => simp [instrToks, keyedToks]; decide
  | loadc r g b => simp [instrToks, keyedToks]; decide
  | cfgw idx v => simp [instrToks, writable_register]; decide

theorem asmParse_instrToks (i : Instr) : asmParse (instrToks i) = some (.cmd i) := by
  cases i with
  | pull w f d =>
    have hd : d.toNat < 2 := Bool.toNat_lt d
    have hlast := asmKeyed_keyedToks (key := ['D', 'O', 'N', 'E']) hd []
    rw [List.append_nil] at hlast
    simp [instrToks, asmParse, asmPull, asmKeyed_keyedToks w.isLt, asmKeyed_keyedToks f.isLt, hlast, asmComma, asmEnd]
  | loadc r g b =>
    have hlast := asmKeyed_keyedToks (key := ['B']) b.isLt []
    rw [List.append_nil] at hlast
    simp [instrToks, asmParse, asmLoadc, asmKeyed_keyedToks r.isLt, asmKeyed_keyedToks g.isLt, hlast, asmComma, asmEnd]
  | cfgw idx v =>
    simp [instrToks, asmParse, asmCfgw, asmRegister_asmDecimal, asmValue_asmDecimal v.isLt, asmComma, asmEnd]

/-- Settles O9: each command's tokens, spelled as text, are read back as the command. -/
theorem everyCommandHasALine : Obligations.EveryCommandHasALine := by
  unfold Obligations.EveryCommandHasALine
  intro i
  exact ⟨(instrToks i).flatMap AsmTok.spell, .cmd i,
    (assembleLine_spell (instrToks_writable i)).trans (asmParse_instrToks i), fun _ => rfl⟩

/-- Settles O8: the assembler runs on each of the lines. -/
theorem specLinesAssemble : Obligations.SpecLinesAssemble := by
  unfold Obligations.SpecLinesAssemble
  decide

end Sys2Proof.Machine

namespace Sys2Proof.Machine

/-! ### What a `PULL` hands out, and what HOST's commands can do -/

/-- All that a `PULL` which passed the checks can hand out: nothing below 8 free slots, a byte's symbols before the end of the
payload, and the RESET at it (R75 to R77). -/
theorem pull_arms {cap w f : Nat} {p : Payload} {d : Bool} (c : Cfg) (h : pullCheck cap p w f d = none) :
    (f < 8 ∧ pullArm w f = .stall ∧ pullSlots c p w (pullArm w f) = []) ∨
    (8 ≤ f ∧ w < 24 ∧ pullArm w f = .data ∧
      ∃ byte, memReadP p (w / 8) = some byte ∧ pullSlots c p w (pullArm w f) = byteSymbols c byte) ∨
    (8 ≤ f ∧ w = 24 ∧ pullArm w f = .terminate ∧ pullSlots c p w (pullArm w f) = [rom c .reset]) := by
  obtain ⟨-, -, hw, hw3, -⟩ := pullCheck_none h
  obtain ⟨ha, hf⟩ | ⟨ha, hf, hlt⟩ | ⟨ha, hf, hend⟩ := pullArm_cases f hw hw3
  · exact .inl ⟨hf, ha, by rw [ha, pullSlots_stall]⟩
  · obtain ⟨byte, hread⟩ := pullArm_data_read h ha
    exact .inr (.inl ⟨hf, hlt, ha, byte, hread, by rw [ha, pullSlots_data hread]⟩)
  · exact .inr (.inr ⟨hf, hend, ha, by rw [ha, pullSlots_terminate]⟩)

section
variable {s t : State} {cmd : CmdWord}

/-- All that a command of HOST's which ENC runs can come to: it raised a fault, or it ran the effect of its rule and HOST
absorbed the response. -/
theorem hostRun_cases {i : Instr} (h : hostRun i s = .next t) : s.fault = none ∧
    ((∃ c, t = raiseFault c (encode i) s) ∨
     (∃ idx v r, i = .cfgw idx v ∧ s.cfgLock = false ∧ t = respond [] false { s with cfg := s.cfg.set r v }) ∨
     (∃ r g b, i = .loadc r g b ∧ s.cfg.valid = true ∧
       t = { respond [] false { s with payload := Payload.load r g b, cfgLock := true } with
               w := 0, done := false, cursorSet := true }) ∨
     (∃ w f, i = .pull w f false ∧ pullCheck s.par.cap s.payload w.toNat f.toNat false = none ∧
       t = hostAbsorb i (respond (pullSlots s.cfg s.payload w.toNat (pullArm w.toNat f.toNat))
         (doneOut (pullArm w.toNat f.toNat) false) s))) := by
  obtain ⟨u, hrun, rfl⟩ := hostRun_next h
  obtain ⟨hs, ⟨c, rfl⟩ | ⟨idx, v, r, rfl, hl, rfl⟩ | ⟨r, g, b, rfl, hv, rfl⟩ | ⟨w, f, rfl, hc, rfl⟩⟩ := exec_next_cases hrun
  · exact ⟨hs, .inl ⟨c, rfl⟩⟩
  · exact ⟨hs, .inr (.inl ⟨idx, v, r, rfl, hl, rfl⟩)⟩
  · exact ⟨hs, .inr (.inr (.inl ⟨r, g, b, rfl, hv, rfl⟩))⟩
  · exact ⟨hs, .inr (.inr (.inr ⟨w, f, rfl, hc, rfl⟩))⟩

/-- All that a word on ENC's port can come to: `ILLEGAL_CMD`, or ENC runs the command. -/
theorem encStep_cases (h : encStep cmd s = .next t) :
    t = raiseFault .illegalCmd cmd s ∨ ∃ i, decode cmd = .cmd i ∧ exec i s = .next t := by
  unfold encStep at h
  split at h
  · next i hi => exact .inr ⟨i, hi, h⟩
  · obtain ⟨-, ⟨c, hc, rfl⟩ | hok⟩ := command_next h
    · cases hc
      exact .inl rfl
    · cases hok

/-- All that a word HOST issues can come to: `ILLEGAL_CMD`, a breach, or ENC runs the command. -/
theorem hostIssue_cases (h : hostIssue cmd s = .next t) :
    t = raiseFault .illegalCmd cmd s ∨ (∃ b, t = { s with hfault := some b }) ∨
    ∃ i, decode cmd = .cmd i ∧ hostBreach i s = none ∧ hostRun i s = .next t := by
  unfold hostIssue at h
  split at h
  · next why hwhy =>
    obtain rfl | ⟨i, hi, -⟩ := encStep_cases h
    · exact .inl rfl
    · rw [hwhy] at hi
      cases hi
  · next i hi =>
    split at h
    · cases h
      exact .inr (.inl ⟨_, rfl⟩)
    · next hb => exact .inr (.inr ⟨i, hi, hb, h⟩)

/-- All that `SET_COLOR` can come to: an overlap, a submit failure, or its `LOADC` is run. -/
theorem startTransmission_cases {r g b : Byte} {sf : Bool} (h : startTransmission r g b sf s = .next t) :
    t = { s with hfault := some .overlap } ∨
    (sf = true ∧ s.active = false ∧ t = failTransmission { s with active := true, en := true }) ∨
    (sf = false ∧ s.active = false ∧
      hostRun (.loadc r g b) { s with active := true, en := true, waited := 0, ret := none } = .next t) := by
  unfold startTransmission at h
  split at h
  · cases h
    exact .inl rfl
  · next ha =>
    have ha := Bool.eq_false_of_not_eq_true ha
    split at h
    · next hsf =>
      cases h
      exact .inr (.inl ⟨hsf, ha, rfl⟩)
    · next hsf => exact .inr (.inr ⟨Bool.eq_false_of_not_eq_true hsf, ha, h⟩)

/-- All that a round of the loop can come to: nothing outside the loop, and in it HOST issues its `PULL`. -/
theorem pullRound_cases {free : CountWord} (h : pullRound free s = .next t) :
    t = s ∨ (s.active = true ∧ s.done = false ∧
      hostIssue (encode (.pull (BitVec.ofNat 16 s.w) free false)) s = .next t) := by
  unfold pullRound at h
  split at h
  · next hround =>
    obtain ⟨ha, hd⟩ : s.active = true ∧ s.done = false := by simpa using hround
    rw [hd] at h
    exact .inr ⟨ha, hd, h⟩
  · cases h
    exact .inl rfl

/-- All that a step of the boot can come to. -/
theorem bootStep_cases {before after : Boot} {ok : Bool} (h : bootStep before after ok s = .next t) :
    s.boot = before ∧ t = { s with boot := if ok then after else .failed } := by
  unfold bootStep at h
  split at h
  · next hb =>
    cases h
    exact ⟨hb, rfl⟩
  · cases h

theorem setPower_cases {on ok : Bool} (h : setPower on ok s = .next t) : t = { s with power := on } := by
  unfold setPower at h
  split at h <;> cases h
  rfl

end

/-! ### The invariant under each operation of ENC and HOST -/

section
variable {s t : State}

theorem Response.ok_wf {syms : List Symbol} (d : Bool) (hlen : syms.length ≤ 8) (hfit : ∀ x ∈ syms, x.fits = true) :
    (Response.ok syms d).WF where
  count_eq := rfl
  count_le := hlen
  syms_fit := hfit
  faulted := nofun

theorem Response.faulted_wf (c : EncFault) : (Response.faulted c).WF where
  count_eq := rfl
  count_le := Nat.zero_le _
  syms_fit := nofun
  faulted := fun _ => rfl

theorem raiseFault_inv (c : EncFault) (cmd : CmdWord) (h : s.Inv) : (raiseFault c cmd s).Inv :=
  { h with
    rsp_wf := by
      rintro r ⟨⟩
      exact ⟨Response.faulted_wf c, rfl⟩
    active_boot := fun ha => ⟨(h.active_boot ha).1, nofun⟩ }

theorem respond_inv {syms : List Symbol} (d : Bool) (h : s.Inv) (hf : s.fault = none) (hlen : syms.length ≤ 8)
    (hfit : ∀ x ∈ syms, x.fits = true) : (respond syms d s).Inv :=
  { h with
    rsp_wf := by
      rintro r ⟨⟩
      exact ⟨Response.ok_wf d hlen hfit, hf.symm⟩ }

theorem respond_nil_inv (h : s.Inv) (hf : s.fault = none) : (respond [] false s).Inv :=
  respond_inv false h hf (Nat.zero_le _) nofun

/-- A register may change while the configuration is unlocked (R20). -/
theorem cfgSet_inv (c : Cfg) (h : s.Inv) (hl : s.cfgLock = false) : ({ s with cfg := c } : State).Inv :=
  { h with
    lock_valid := fun hl' => by
      rw [hl] at hl'
      cases hl' }

theorem load_inv (r g b : Byte) (h : s.Inv) (hv : s.cfg.valid = true) :
    ({ s with payload := Payload.load r g b, cfgLock := true } : State).Inv :=
  { h with
    lock_payload := rfl
    lock_valid := fun _ => hv
    cursor_loaded := fun _ => rfl }

/-- HOST's fresh cursor (R91). -/
theorem freshCursor_inv (h : s.Inv) (hw : s.payload.written = true) :
    ({ s with w := 0, done := false, cursorSet := true } : State).Inv :=
  { h with
    cursor_legal := fun _ => .inl ⟨by simp, rfl⟩
    cursor_loaded := fun _ => hw
    active_boot := fun ha => ⟨(h.active_boot ha).1, fun _ => rfl⟩ }

/-- HOST's part of `SET_COLOR`'s start, seen after its `LOADC`. -/
theorem start_inv (h : s.Inv) (hb : s.boot = .ready) (hc : s.fault = none → s.cursorSet = true) :
    ({ s with active := true, en := true, waited := 0, ret := none } : State).Inv :=
  { h with
    channel := rfl
    line_idle := nofun
    active_boot := fun _ => ⟨hb, hc⟩
    ret_open := fun _ => rfl }

/-- The slots of a `PULL` that passed the checks fit behind the ring's symbols and in a response. -/
theorem pullSlots_length_le {cap w f : Nat} {p : Payload} {d : Bool} (c : Cfg) (h : pullCheck cap p w f d = none) :
    (pullSlots c p w (pullArm w f)).length ≤ 8 ∧ (pullSlots c p w (pullArm w f)).length ≤ f := by
  obtain ⟨-, -, e⟩ | ⟨hf, -, -, byte, -, e⟩ | ⟨hf, -, -, e⟩ := pull_arms c h <;> rw [e]
  · simp
  · rw [byteSymbols_length]
    omega
  · rw [List.length_singleton]
    omega

/-- A written payload is behind a locked, and so a valid, configuration. -/
theorem State.Inv.valid_of_written (h : s.Inv) (hp : s.payload.written = true) : s.cfg.valid = true :=
  h.lock_valid (h.lock_payload ▸ hp)

theorem pullSlots_fit_of_inv {w f : Nat} {d : Bool} (h : s.Inv) (hc : pullCheck s.par.cap s.payload w f d = none) :
    ∀ x ∈ pullSlots s.cfg s.payload w (pullArm w f), x.fits = true :=
  pullSlots_fit (h.valid_of_written (pullCheck_none hc).1) _ _ _

/-- A cursor that the checks pass moves to a legal one (R18). -/
theorem cursorLegal_pull {cap w f : Nat} {p : Payload} {d : Bool} (c : Cfg) (h : pullCheck cap p w f d = none) :
    cursorLegal (w + (pullSlots c p w (pullArm w f)).length) (doneOut (pullArm w f) false) := by
  obtain ⟨-, -, hw, hw3, -⟩ := pullCheck_none h
  simp only [cursorLegal, List.mem_cons, List.not_mem_nil, or_false]
  obtain ⟨-, ha, e⟩ | ⟨-, hlt, ha, byte, -, e⟩ | ⟨-, hend, ha, e⟩ := pull_arms c h <;> rw [e, ha]
  · exact .inl ⟨by rw [List.length_nil]; omega, rfl⟩
  · exact .inl ⟨by rw [byteSymbols_length]; omega, rfl⟩
  · exact .inr ⟨by rw [hend, List.length_singleton], rfl⟩

/-- HOST appends the symbols of a `PULL` of its own and threads its cursor. -/
theorem hostPull_inv {w f : CountWord} (h : s.Inv) (hs : s.fault = none) (hb : hostBreach (.pull w f false) s = none)
    (hc : pullCheck s.par.cap s.payload w.toNat f.toNat false = none) :
    (hostAbsorb (.pull w f false) (respond (pullSlots s.cfg s.payload w.toNat (pullArm w.toNat f.toNat))
      (doneOut (pullArm w.toNat f.toNat) false) s)).Inv := by
  obtain ⟨hcursor, hfree⟩ := hostBreach_pull_none hb
  obtain ⟨hlen8, hlenf⟩ := pullSlots_length_le s.cfg hc
  have hfit := pullSlots_fit_of_inv h hc
  have hring := h.ring_bound
  have hlegal := cursorLegal_pull s.cfg hc
  rw [hostAbsorb_pull]
  exact
    { h with
      rsp_wf := (respond_inv _ h hs hlen8 hfit).rsp_wf
      ring_bound := by
        show (s.ring ++ _).length ≤ s.par.ringDepth
        rw [List.length_append]
        omega
      ring_fits := fun x hx => (List.mem_append.1 hx).elim (h.ring_fits x) (hfit x)
      cursor_legal := fun hset => by
        have hset : s.cursorSet = true := hset
        show cursorLegal (if s.cursorSet then _ else _) (if s.cursorSet then _ else _)
        rw [if_pos hset, if_pos hset, ← (hcursor hset).1]
        exact hlegal }

/-- ENC's own commands keep the invariant. -/
theorem exec_inv {i : Instr} (h : s.Inv) (hrun : exec i s = .next t) : t.Inv := by
  obtain ⟨hs, ⟨c, rfl⟩ | ⟨idx, v, r, -, hl, rfl⟩ | ⟨r, g, b, -, hv, rfl⟩ | ⟨w, f, -, hc, rfl⟩⟩ := exec_next_cases hrun
  · exact raiseFault_inv c _ h
  · exact respond_nil_inv (cfgSet_inv _ h hl) hs
  · exact respond_nil_inv (load_inv r g b h hv) hs
  · exact respond_inv _ h hs (pullSlots_length_le s.cfg hc).1 (pullSlots_fit_of_inv h hc)

theorem encStep_inv {cmd : CmdWord} (h : s.Inv) (hstep : encStep cmd s = .next t) : t.Inv := by
  obtain rfl | ⟨i, -, hrun⟩ := encStep_cases hstep
  · exact raiseFault_inv _ cmd h
  · exact exec_inv h hrun

theorem hostIssue_inv {cmd : CmdWord} (h : s.Inv) (hstep : hostIssue cmd s = .next t) : t.Inv := by
  obtain rfl | ⟨b, rfl⟩ | ⟨i, -, hb, hrun⟩ := hostIssue_cases hstep
  · exact raiseFault_inv _ cmd h
  · exact { h with }
  · obtain ⟨hs, ⟨c, rfl⟩ | ⟨idx, v, r, -, hl, rfl⟩ | ⟨r, g, b, -, hv, rfl⟩ | ⟨w, f, rfl, hc, rfl⟩⟩ := hostRun_cases hrun
    · exact raiseFault_inv c _ h
    · exact respond_nil_inv (cfgSet_inv _ h hl) hs
    · exact freshCursor_inv (respond_nil_inv (load_inv r g b h hv) hs) rfl
    · exact hostPull_inv h hs hb hc

theorem pullRound_inv {free : CountWord} (h : s.Inv) (hstep : pullRound free s = .next t) : t.Inv := by
  obtain rfl | ⟨-, -, hissue⟩ := pullRound_cases hstep
  · exact h
  · exact hostIssue_inv h hissue

/-! ### The invariant under PG and the end of a transmission -/

/-- Disabling leaves PG idle, or a legal symbol cut off in the middle (R89). -/
theorem disable_play_wf (h : s.play.WF) : (disable s).play.WF := by
  unfold disable
  split
  · next sym e hp =>
    show Play.WF (if Config.cutSymbolResumes s.draws then Play.playing sym e else .idle)
    split
    · rwa [← hp]
    · exact nofun
  · exact nofun

/-- The end of a transmission, whatever it returns and however far it had begun (R91). -/
theorem release_inv (a e : Bool) (r : Ret) (h : s.Inv) :
    ({ disable { s with active := a, en := e } with active := false, ret := some r } : State).Inv := by
  rw [disable_frame]
  exact
    { h with
      play_wf := disable_play_wf h.play_wf
      channel := rfl
      line_idle := fun _ => rfl
      active_boot := nofun
      ret_open := nofun }

theorem startTransmission_inv {r g b : Byte} {sf : Bool} (h : s.Inv) (hr : s.hostRuns)
    (hstep : startTransmission r g b sf s = .next t) : t.Inv := by
  obtain ⟨-, -, hboot⟩ := hr
  obtain rfl | ⟨-, -, rfl⟩ | ⟨-, -, hrun⟩ := startTransmission_cases hstep
  · exact { h with }
  · exact release_inv true true .fail h
  · obtain ⟨hs, ⟨c, rfl⟩ | ⟨_, _, _, hi, -, -⟩ | ⟨r, g, b, -, hv, rfl⟩ | ⟨_, _, hi, -, -⟩⟩ := hostRun_cases hrun
    · exact start_inv (raiseFault_inv c _ h) hboot nofun
    · cases hi
    · have hload : (respond [] false { s with payload := Payload.load r g b, cfgLock := true }).Inv :=
        respond_nil_inv (load_inv r g b h hv) hs
      exact start_inv (freshCursor_inv hload rfl) hboot fun _ => rfl
    · cases hi

theorem waitForDrain_inv (d : Bool) (h : s.Inv) : (waitForDrain d s).Inv := by
  obtain e | ⟨-, -, e⟩ | ⟨-, -, -, -, -, e⟩ := waitForDrain_cases d s <;> rw [e]
  · exact h
  · exact release_inv s.active s.en .fail h
  · exact release_inv s.active s.en .ok h

/-- A tick of a legal symbol leaves it in play unless it is over. -/
theorem playTick_inv {x : Symbol} {e : Nat} (h : s.Inv) (hen : s.en = true) (hx : x.fits = true) :
    (playTick x e s).Inv := by
  rw [playTick_frame]
  refine
    { h with
      play_wf := ?_
      line_idle := fun hdis => ?_ }
  · show Play.WF (playTick x e s).play
    unfold playTick
    split
    · next hlt =>
      rintro _ _ ⟨⟩
      exact ⟨hx, Nat.succ_pos e, hlt⟩
    · show Play.WF (if s.ring.isEmpty then .starved false else .idle)
      split <;> exact nofun
  · have hdis : s.en = false := hdis
    rw [hen] at hdis
    cases hdis

theorem startTick_inv (h : s.Inv) (hen : s.en = true) : (startTick s).Inv := by
  unfold startTick
  split
  · next x rest htake =>
    obtain ⟨skipped, hring, -, -⟩ := takeHead_some htake
    have hmem {y : Symbol} (hy : y ∈ x :: rest) : y.fits = true :=
      h.ring_fits y (hring ▸ List.mem_append_right skipped hy)
    have hrest : ({ s with ring := rest } : State).Inv :=
      { h with
        ring_bound := by
          have hbound := h.ring_bound
          rw [hring, List.length_append, List.length_cons] at hbound
          show rest.length ≤ s.par.ringDepth
          omega
        ring_fits := fun y hy => hmem (List.mem_cons_of_mem x hy) }
    exact playTick_inv hrest hen (hmem List.mem_cons_self)
  · exact
      { h with
        ring_bound := Nat.zero_le _
        ring_fits := nofun
        line_idle := fun _ => rfl }

theorem gapTick_inv (left : Nat) (h : s.Inv) (hen : s.en = true) : (gapTick left s).Inv := by
  cases left with
  | zero => exact startTick_inv h hen
  | succ n =>
    exact
      { h with
        play_wf := nofun
        line_idle := fun _ => rfl }

theorem pgTick_inv (h : s.Inv) : (pgTick s).Inv := by
  unfold pgTick
  split
  · next hen =>
    split
    · exact startTick_inv h hen
    · next x e hp => exact playTick_inv h hen (h.play_wf x e hp).1
    · split
      · exact
          { h with
            play_wf := nofun
            line_idle := fun _ => rfl }
      · exact gapTick_inv _ { h with } hen
    · exact gapTick_inv _ h hen
  · exact
      { h with
        line_idle := fun _ => rfl }

theorem tick_inv (h : s.Inv) : (tick s).Inv := by
  obtain ⟨n, ht⟩ := tick_eq_pgTick s
  rw [ht]
  exact pgTick_inv { h with }

/-- A boot step is taken before there is a HOST, so that no transmission is in flight. -/
theorem boot_inv (b : Boot) (h : s.Inv) (hb : s.boot ≠ .ready) : ({ s with boot := b } : State).Inv :=
  { h with
    active_boot := fun ha => absurd (h.active_boot ha).1 hb }

end

/-! ### The invariant at reset and under every step -/

theorem reset_inv : State.reset.Inv where
  cap_min := Nat.le_add_left 8 Config.capExtra
  lock_payload := rfl
  lock_valid := nofun
  rsp_wf := nofun
  ring_bound := Nat.zero_le _
  ring_fits := nofun
  play_wf := nofun
  cursor_legal := nofun
  cursor_loaded := nofun
  channel := rfl
  line_idle := fun _ => rfl
  active_boot := nofun
  ret_open := nofun

theorem blockReset_inv {s : State} (h : s.Inv) : (blockReset s).Inv :=
  { reset_inv with
    cap_min := h.cap_min
    ring_bound := Nat.zero_le _ }

theorem runEvent_inv {s t : State} {e : Event} (h : s.Inv) (hstep : runEvent e s = .next t) : t.Inv := by
  cases e with
  | port cmd => exact encStep_inv h hstep
  | issue cmd => exact hostIssue_inv h (hostAct_next hstep).2
  | cfgTiming hz t0h t0l t1h t1l rst =>
    cases (hostAct_next hstep).2
    exact { h with }
  | setColor r g b submitFails =>
    obtain ⟨hr, hstart⟩ := hostAct_next hstep
    exact startTransmission_inv h hr hstart
  | pull free => exact pullRound_inv h (hostAct_next hstep).2
  | drain drainFails =>
    cases (hostAct_next hstep).2
    exact waitForDrain_inv drainFails h
  | acquireGpio ok =>
    obtain ⟨hb, rfl⟩ := acquireGpio_next hstep
    have hpin : ({ s with power := Config.powerAfterPinReset s.draws, draws := s.draws + 1 } : State).Inv := { h with }
    exact boot_inv _ hpin (by rw [hb]; nofun)
  | configureChannel ok =>
    obtain ⟨hb, rfl⟩ := bootStep_cases hstep
    exact boot_inv _ h (by rw [hb]; nofun)
  | power on ok =>
    rw [setPower_cases hstep]
    exact { h with }
  | tick =>
    cases hstep
    exact tick_inv h
  | blockReset =>
    cases hstep
    exact blockReset_inv h

theorem step_inv {s t : State} (h : s.Inv) (hstep : step s = .next t) : t.Inv := by
  cases hi : s.inbox with
  | nil =>
    rw [step_nil hi] at hstep
    cases hstep
    exact tick_inv h
  | cons e rest =>
    rw [step_cons hi] at hstep
    exact runEvent_inv (s := { s with inbox := rest }) { h with } hstep

/-- Settles O51: nothing is queued, in flight or locked after reset, and `CAP` is 8 or more. -/
theorem invariantAtReset : Obligations.InvariantAtReset := by
  unfold Obligations.InvariantAtReset
  exact reset_inv

/-- Settles O52: each event runs operations that keep the invariant. -/
theorem stepKeepsTheInvariant : Obligations.StepKeepsTheInvariant := by
  unfold Obligations.StepKeepsTheInvariant
  exact fun _ _ => step_inv

end Sys2Proof.Machine

namespace Sys2Proof.Machine

/-! ### The commands' outcomes, by their rules -/

section
variable {s t : State}

theorem exec_cfgw_eq (idx : BitVec 4) (v : CfgWord) (s : State) :
    exec (.cfgw idx v) s = command (encode (.cfgw idx v)) s (cfgw idx v s) := rfl

theorem exec_loadc_eq (r g b : Byte) (s : State) :
    exec (.loadc r g b) s = command (encode (.loadc r g b)) s (loadc r g b s) := rfl

theorem exec_pull_eq (w f : CountWord) (d : Bool) (s : State) :
    exec (.pull w f d) s = command (encode (.pull w f d)) s (pull w f d s) := rfl

/-! #### `CFGW` (R71) -/

theorem CfgReg.index_inj {q r : CfgReg} : q.index = r.index ↔ q = r :=
  ⟨fun h => Option.some_injective _ (by rw [← ofIndex_index q, h, ofIndex_index r]), congrArg _⟩

theorem CfgReg.exists_of_index_le {idx : BitVec 4} (h : idx.toNat ≤ 5) : ∃ r : CfgReg, CfgReg.ofIndex idx = some r := by
  rw [← Option.isSome_iff_exists, ofIndex_isSome]
  exact decide_eq_true h

theorem CfgReg.ofIndex_reserved {idx : BitVec 4} (h : 6 ≤ idx.toNat) : CfgReg.ofIndex idx = none := by
  rw [← Option.not_isSome_iff_eq_none, ofIndex_isSome, decide_eq_true_iff]
  omega

/-- A write changes the register of the index and no other. -/
theorem Cfg.get_set_of_ofIndex (c : Cfg) {idx : BitVec 4} {r : CfgReg} (v : CfgWord) (h : CfgReg.ofIndex idx = some r)
    (q : CfgReg) : (c.set r v).get q = if q.index = idx then v else c.get q := by
  rw [← CfgReg.index_of_ofIndex idx r h]
  by_cases hq : q = r
  · rw [hq, Cfg.get_set_same, if_pos rfl]
  · rw [Cfg.get_set_other c v hq, if_neg (mt CfgReg.index_inj.1 hq)]

theorem exec_cfgw_unlocked {idx : BitVec 4} {r : CfgReg} (v : CfgWord) (hs : s.fault = none)
    (hr : CfgReg.ofIndex idx = some r) (hl : s.cfgLock = false) :
    exec (.cfgw idx v) s = .next (respond [] false { s with cfg := s.cfg.set r v }) := by
  have hrule : cfgw idx v s = .ok (respond [] false { s with cfg := s.cfg.set r v }) := by simp [cfgw, hr, hl]
  rw [exec_cfgw_eq, hrule, command_ok hs]

theorem exec_cfgw_lockFault {idx : BitVec 4} (v : CfgWord) (hs : s.fault = none) (hidx : idx.toNat ≤ 5)
    (hl : s.cfgLock = true) : exec (.cfgw idx v) s = .next (raiseFault .cfgLocked (encode (.cfgw idx v)) s) := by
  obtain ⟨r, hr⟩ := CfgReg.exists_of_index_le hidx
  have hrule : cfgw idx v s = .error .cfgLocked := by simp [cfgw, hr, hl]
  rw [exec_cfgw_eq, hrule, command_error hs]

theorem exec_cfgw_reserved {idx : BitVec 4} (v : CfgWord) (hs : s.fault = none) (hidx : 6 ≤ idx.toNat) :
    exec (.cfgw idx v) s = .next (raiseFault .illegalCmd (encode (.cfgw idx v)) s) := by
  have hrule : cfgw idx v s = .error .illegalCmd := by simp [cfgw, CfgReg.ofIndex_reserved hidx]
  rw [exec_cfgw_eq, hrule, command_error hs]

/-! #### `LOADC` (R72) -/

theorem exec_loadc_valid (r g b : Byte) (hs : s.fault = none) (hv : s.cfg.valid = true) :
    exec (.loadc r g b) s =
      .next (respond [] false { s with payload := Payload.load r g b, cfgLock := true }) := by
  have hrule : loadc r g b s = .ok (respond [] false { s with payload := Payload.load r g b, cfgLock := true }) := by
    simp [loadc, hv]
  rw [exec_loadc_eq, hrule, command_ok hs]

theorem exec_loadc_invalid (r g b : Byte) (hs : s.fault = none) (hv : s.cfg.valid = false) :
    exec (.loadc r g b) s = .next (raiseFault .cfgInvalid (encode (.loadc r g b)) s) := by
  have hrule : loadc r g b s = .error .cfgInvalid := by simp [loadc, hv]
  rw [exec_loadc_eq, hrule, command_error hs]

/-! #### `PULL` (R74) -/

theorem exec_pull_fault {w f : CountWord} {d : Bool} {c : EncFault} (hs : s.fault = none)
    (hc : pullCheck s.par.cap s.payload w.toNat f.toNat d = some c) :
    exec (.pull w f d) s = .next (raiseFault c (encode (.pull w f d)) s) := by
  have hrule : pull w f d s = .error c := by simp [pull, hc]
  rw [exec_pull_eq, hrule, command_error hs]

section
variable {cap w f : Nat} {p : Payload} {d : Bool}

theorem pullCheck_unwritten (hp : p.written = false) : pullCheck cap p w f d = some .noPayload := by
  simp [pullCheck, hp]

theorem pullCheck_done (hp : p.written = true) : pullCheck cap p w f true = some .afterDone := by
  simp [pullCheck, hp]

theorem pullCheck_badCursor (hp : p.written = true) (hw : w % 8 ≠ 0 ∨ w / 8 > 3) :
    pullCheck cap p w f false = some .cursor := by
  have hplen : Config.plen = 3 := rfl
  simp only [pullCheck, hp, hplen, if_pos hw]
  rfl

theorem pullCheck_overCap (hp : p.written = true) (hw : w % 8 = 0) (hw3 : w / 8 ≤ 3) (hf : cap < f) :
    pullCheck cap p w f false = some .capacity := by
  simp [pullCheck, hp, hw, Config.plen, not_lt.2 hw3, hf]

end

end

/-- Settles O10: the rule's three outcomes, by the index and the lock. -/
theorem cfgwWritesOneRegisterOrFaults : Obligations.CfgwWritesOneRegisterOrFaults := by
  unfold Obligations.CfgwWritesOneRegisterOrFaults
  refine fun s idx v hs => ⟨fun hidx hl => ?_, fun hidx hl => exec_cfgw_lockFault v hs hidx hl,
    fun hidx => exec_cfgw_reserved v hs hidx⟩
  obtain ⟨r, hr⟩ := CfgReg.exists_of_index_le hidx
  exact ⟨s.cfg.set r v, exec_cfgw_unlocked v hs hr hl, Cfg.get_set_of_ofIndex s.cfg v hr⟩

/-- Settles O11: the rule's two outcomes, by the configuration's validity. -/
theorem loadcStoresGreenRedBlueOrFaults : Obligations.LoadcStoresGreenRedBlueOrFaults := by
  unfold Obligations.LoadcStoresGreenRedBlueOrFaults
  refine fun s r g b hs => ⟨fun hv => ?_, exec_loadc_invalid r g b hs⟩
  refine ⟨Payload.load r g b, exec_loadc_valid r g b hs hv, rfl, rfl, rfl, fun i hi => ?_⟩
  rw [memReadP_written (Payload.load_written r g b), Payload.load_bytes]
  exact List.getElem?_eq_none hi

/-- Settles O12: each bound of the check, with the halves of RESET's ticks said on their sum. -/
theorem configurationValidity : Obligations.ConfigurationValidity := by
  unfold Obligations.ConfigurationValidity
  refine fun c => ⟨?_, fun hz => ?_⟩
  · have hreset : 1 ≤ c.resetTicks / 2 ∧ c.resetTicks - c.resetTicks / 2 ≤ 32767 ↔
        2 ≤ c.resetTicks ∧ c.resetTicks ≤ 65534 := by
      omega
    rw [valid_iff, hreset]
    simp only [Cfg.resetTicks, ticks_eq]
  · have hzero : ticks c.tickHz c.t0hNs = 0 := by simp [ticks_eq, hz]
    rw [← Bool.not_eq_true, valid_iff, hzero]
    omega

/-- The rounded quotient is within half of the quotient. -/
theorem ticks_bounds (hz ns : CfgWord) :
    2000000000 * ticks hz ns ≤ 2 * (ns.toNat * hz.toNat) + 1000000000 ∧
      2 * (ns.toNat * hz.toNat) ≤ 2000000000 * ticks hz ns + 1000000000 := by
  rw [ticks_eq]
  omega

/-- Settles O16: the bound on naturals, divided by the tick frequency. -/
theorem conversionIsWithinHalfATick : Obligations.ConversionIsWithinHalfATick := by
  unfold Obligations.ConversionIsWithinHalfATick
  intro c ns hne
  have hhz : (0 : Rat) < c.tickHz.toNat := by
    have : c.tickHz.toNat ≠ 0 := fun h => hne (BitVec.eq_of_toNat_eq h)
    exact_mod_cast Nat.pos_of_ne_zero this
  obtain ⟨hlo, hhi⟩ := ticks_bounds c.tickHz ns
  have hlo : (2000000000 : Rat) * ticks c.tickHz ns ≤ 2 * (ns.toNat * c.tickHz.toNat) + 1000000000 := by
    exact_mod_cast hlo
  have hhi : (2 : Rat) * (ns.toNat * c.tickHz.toNat) ≤ 2000000000 * ticks c.tickHz ns + 1000000000 := by
    exact_mod_cast hhi
  have herr : (ticks c.tickHz ns : Rat) * c.tickNs - ns.toNat =
      (1000000000 * ticks c.tickHz ns - ns.toNat * c.tickHz.toNat) / c.tickHz.toNat := by
    unfold Cfg.tickNs
    field_simp
  have hhalf : c.tickNs / 2 = 500000000 / c.tickHz.toNat := by
    unfold Cfg.tickNs
    field_simp
    norm_num
  rw [herr, hhalf, abs_div, abs_of_pos hhz]
  refine div_le_div_of_nonneg_right (abs_le.2 ⟨?_, ?_⟩) hhz.le <;> linarith

/-! ### The packed symbol word (R54) -/

theorem Symbol.pack_toNat {x : Symbol} (h0 : x.dur0 < 2 ^ 15) (h1 : x.dur1 < 2 ^ 15) :
    x.pack.toNat = x.dur0 + 2 ^ 15 * x.lvl0.toNat + 2 ^ 16 * x.dur1 + 2 ^ 31 * x.lvl1.toNat := by
  simp only [Symbol.pack, BitVec.toNat_append, Nat.shiftLeft_eq, BitVec.toNat_ofNat, BitVec.toNat_ofBool,
    Nat.mod_eq_of_lt h0, Nat.mod_eq_of_lt h1]
  rw [Nat.mul_comm _ (2 ^ 15), Nat.mul_comm _ (2 ^ 1), Nat.mul_comm _ (2 ^ 15), ← Nat.two_pow_add_eq_or_of_lt h0,
    ← Nat.two_pow_add_eq_or_of_lt (Bool.toNat_lt _), ← Nat.two_pow_add_eq_or_of_lt h1]
  omega

theorem Symbol.unpack_eq (v : SymWord) : Symbol.unpack v =
    { lvl0 := decide (v.toNat / 2 ^ 15 % 2 = 1), dur0 := v.toNat % 2 ^ 15,
      lvl1 := decide (v.toNat / 2 ^ 31 % 2 = 1), dur1 := v.toNat / 2 ^ 16 % 2 ^ 15 } := by
  simp [Symbol.unpack, BitVec.getLsbD, Nat.testBit_eq_decide_div_mod_eq, Nat.shiftRight_eq_div_pow]

theorem toNat_decide_mod_two (n : Nat) : (decide (n % 2 = 1)).toNat = n % 2 := by
  rcases Nat.mod_two_eq_zero_or_one n with h | h <;> rw [h] <;> rfl

theorem decide_eq_of_toNat_eq {n : Nat} {b : Bool} (h : n % 2 = b.toNat) : decide (n % 2 = 1) = b := by
  rw [h]
  cases b <;> rfl

/-- Settles O18: both directions on the word's number. -/
theorem symbolWordLayout : Obligations.SymbolWordLayout := by
  unfold Obligations.SymbolWordLayout
  refine ⟨fun x hx => ?_, fun v => ?_⟩
  · obtain ⟨⟨-, h0⟩, -, h1⟩ := (fits_iff x).1 hx
    have hpack := Symbol.pack_toNat (x := x) (by omega) (by omega)
    have hl0 := Bool.toNat_lt x.lvl0
    have hl1 := Bool.toNat_lt x.lvl1
    refine ⟨hpack, ?_⟩
    rw [Symbol.unpack_eq, decide_eq_of_toNat_eq (b := x.lvl0) (by omega), decide_eq_of_toNat_eq (b := x.lvl1) (by omega),
      Symbol.mk.injEq]
    refine ⟨rfl, ?_, rfl, ?_⟩ <;> omega
  · have hv := v.isLt
    rw [← BitVec.toNat_inj, Symbol.unpack_eq, Symbol.pack_toNat (Nat.mod_lt _ (by decide)) (Nat.mod_lt _ (by decide)),
      toNat_decide_mod_two, toNat_decide_mod_two]
    dsimp only
    omega

/-! ### The arms and checks of `PULL` -/

/-- Settles O19: the checks pass and fewer than 8 slots take the stall arm. -/
theorem pullStallsBelowEightSlots : Obligations.PullStallsBelowEightSlots := by
  unfold Obligations.PullStallsBelowEightSlots
  intro s w f hs hp hw hw3 hcap hf
  have hpass : pullCheck s.par.cap s.payload w.toNat f.toNat false = none := pullCheck_pass hp hw hw3 hcap
  obtain ⟨-, ha, hslots⟩ | ⟨h8, -⟩ | ⟨h8, -⟩ := pull_arms s.cfg hpass
  · rw [exec_pull_pass hs hpass, hslots, ha]
    rfl
  · omega
  · omega

/-- Settles O21: the checks pass at 24 and the cursor takes the terminate arm. -/
theorem pullEmitsTheResetSymbol : Obligations.PullEmitsTheResetSymbol := by
  unfold Obligations.PullEmitsTheResetSymbol
  intro s f hs hp hf hcap
  have hpass : pullCheck s.par.cap s.payload (24 : CountWord).toNat f.toNat false = none :=
    pullCheck_pass hp (by decide) (by decide) hcap
  obtain ⟨hlt, -⟩ | ⟨-, hlt, -⟩ | ⟨-, -, ha, hslots⟩ := pull_arms s.cfg hpass
  · omega
  · exact absurd hlt (by decide)
  · rw [exec_pull_pass hs hpass, hslots, ha]
    rfl

/-- Settles O22: the first check that fails gives the fault. -/
theorem pullFaultPriority : Obligations.PullFaultPriority := by
  unfold Obligations.PullFaultPriority
  intro s w f d hs raises
  refine ⟨fun hp => ?_, ?_, ?_, ?_⟩
  · exact exec_pull_fault hs (pullCheck_unwritten hp)
  · rintro hp rfl
    exact exec_pull_fault hs (pullCheck_done hp)
  · rintro hp rfl hw
    exact exec_pull_fault hs (pullCheck_badCursor hp hw)
  · rintro hp rfl hw hw3 hf
    exact exec_pull_fault hs (pullCheck_overCap hp hw hw3 hf)

/-- Settles O23: a fault and the two writing commands hand out nothing, and a `PULL` what its arm does. -/
theorem responsesAreWholeBytes : Obligations.ResponsesAreWholeBytes := by
  unfold Obligations.ResponsesAreWholeBytes
  intro i s t h
  obtain ⟨-, ⟨c, rfl⟩ | ⟨idx, v, r, -, -, rfl⟩ | ⟨r, g, b, -, -, rfl⟩ | ⟨w, f, rfl, hc, rfl⟩⟩ := exec_next_cases h
  · exact ⟨_, rfl, rfl, .inl rfl, fun _ => rfl, nofun⟩
  · exact ⟨_, rfl, rfl, .inl rfl, fun _ => rfl, nofun⟩
  · exact ⟨_, rfl, rfl, .inl rfl, fun _ => rfl, nofun⟩
  · refine ⟨_, rfl, rfl, ?_⟩
    obtain ⟨-, ha, hslots⟩ | ⟨-, -, ha, byte, -, hslots⟩ | ⟨hf, hend, ha, hslots⟩ := pull_arms s.cfg hc <;>
      rw [hslots, ha]
    · exact ⟨.inl rfl, fun _ => rfl, nofun⟩
    · exact ⟨.inr (.inr rfl), fun hpull => absurd rfl (hpull _ _ _), nofun⟩
    · obtain rfl : w = 24 := BitVec.eq_of_toNat_eq hend
      exact ⟨.inr (.inl rfl), fun hpull => absurd rfl (hpull _ _ _), fun _ => ⟨rfl, rfl, f, rfl, hf⟩⟩

/-- What a `PULL` that ends without a fault has done. -/
theorem exec_pull_ok {s t : State} {w f : CountWord} {d : Bool} (h : exec (.pull w f d) s = .next t)
    (hok : t.fault = none) : d = false ∧ pullCheck s.par.cap s.payload w.toNat f.toNat false = none ∧
      t = respond (pullSlots s.cfg s.payload w.toNat (pullArm w.toNat f.toNat))
        (doneOut (pullArm w.toNat f.toNat) false) s := by
  obtain ⟨-, ⟨c, rfl⟩ | ⟨_, _, _, hi, -⟩ | ⟨_, _, _, hi, -⟩ | ⟨w', f', hi, hc, rfl⟩⟩ := exec_next_cases h
  · cases hok
  · cases hi
  · cases hi
  · cases hi
    exact ⟨rfl, hc, rfl⟩

/-- Settles O24: the check and the arm read the payload, the configuration, the operands and `CAP` only, and a `PULL` writes
none of them. -/
theorem pullHasNoHiddenInput : Obligations.PullHasNoHiddenInput := by
  unfold Obligations.PullHasNoHiddenInput
  refine fun w f d s u => ⟨fun hs hu hp hcfg hcap => ?_, fun t h hok => ?_⟩
  · cases hc : pullCheck s.par.cap s.payload w.toNat f.toNat d with
    | some c => exact ⟨_, _, exec_pull_fault hs hc, exec_pull_fault hu (by rwa [← hp, ← hcap]), rfl, rfl⟩
    | none =>
      obtain rfl := (pullCheck_none hc).2.1
      refine ⟨_, _, exec_pull_pass hs hc, exec_pull_pass hu (by rwa [← hp, ← hcap]), ?_, ?_⟩
      · rw [respond_rsp, respond_rsp, hp, hcfg]
      · exact hs.trans hu.symm
  · obtain ⟨rfl, hc, rfl⟩ := exec_pull_ok h hok
    exact exec_pull_pass hok hc

/-- Settles O25: each arm is the branch of the source's algorithm for the same operands. -/
theorem pullAgreesWithEncodeRaw : Obligations.PullAgreesWithEncodeRaw := by
  unfold Obligations.PullAgreesWithEncodeRaw
  intro s t w f d h hok
  obtain ⟨rfl, hc, rfl⟩ := exec_pull_ok h hok
  refine ⟨_, rfl, rfl, ?_⟩
  have hread (byte : Byte) (hbyte : memReadP s.payload (w.toNat / 8) = some byte) :
      [s.payload.green, s.payload.red, s.payload.blue][w.toNat / 8]? = some byte := by
    rwa [memReadP_written (pullCheck_none hc).1] at hbyte
  unfold encodeRaw
  obtain ⟨hf, ha, hslots⟩ | ⟨hf, -, ha, byte, hbyte, hslots⟩ | ⟨hf, hend, ha, hslots⟩ := pull_arms s.cfg hc <;>
    rw [hslots, ha]
  · rw [if_pos hf]
    rfl
  · rw [if_neg (not_lt.2 hf), hread byte hbyte]
    rfl
  · rw [if_neg (not_lt.2 hf), hend]
    rfl

/-! ### What commands and other events leave unchanged -/

/-- Settles O29: of the effects a command can have, only its own and a fault's are possible. -/
theorem commandFrame : Obligations.CommandFrame := by
  unfold Obligations.CommandFrame
  refine ⟨fun w f d s t h => ?_, fun r g b s t h => ?_, fun idx v s t h => ?_⟩ <;>
    obtain ⟨hs, ⟨c, rfl⟩ | ⟨_, _, _, hi, -, rfl⟩ | ⟨_, _, _, hi, -, rfl⟩ | ⟨_, _, hi, -, rfl⟩⟩ := exec_next_cases h
  case refine_1.inl => exact ⟨rfl, fun _ => rfl, nofun⟩
  case refine_1.inr.inr.inr => exact ⟨rfl, fun _ => rfl, fun _ => rfl⟩
  case refine_2.inl => exact ⟨rfl, nofun, fun _ => ⟨rfl, rfl⟩⟩
  case refine_2.inr.inr.inl => exact ⟨rfl, fun _ => rfl, fun hf => absurd hs hf⟩
  case refine_3.inl => exact ⟨rfl, fun _ => rfl, nofun, fun _ => rfl⟩
  case refine_3.inr.inl => exact ⟨rfl, fun _ => rfl, fun _ => rfl, fun hf => absurd hs hf⟩
  all_goals cases hi

theorem enc_eq_iff {s t : State} : t.enc = s.enc ↔ t.cfg = s.cfg ∧ t.cfgLock = s.cfgLock ∧ t.payload = s.payload ∧
    t.fault = s.fault ∧ t.faultCmd = s.faultCmd ∧ t.rsp = s.rsp := by
  simp [State.enc]

/-- Settles O30: none of these events hands ENC a word. -/
theorem onlyCommandsChangeEnc : Obligations.OnlyCommandsChangeEnc := by
  unfold Obligations.OnlyCommandsChangeEnc
  intro s t h hev
  rw [← enc_eq_iff]
  obtain hi | ⟨e, rest, hi, hev⟩ := hev
  · rw [step_nil hi] at h
    cases h
    exact tick_enc s
  rw [step_cons hi] at h
  obtain rfl | ⟨d, rfl⟩ | ⟨o, rfl⟩ | ⟨o, rfl⟩ | ⟨p, o, rfl⟩ | ⟨hz, a, b, c, d, r, rfl⟩ := hev
  · cases h
    exact tick_enc _
  · cases (hostAct_next h).2
    exact waitForDrain_enc _ d
  · exact (acquireGpio_enc h).trans rfl
  · exact (bootStep_enc h).trans rfl
  · exact (setPower_enc h).trans rfl
  · cases (hostAct_next h).2
    rfl

/-! ### Who writes the payload (R21) -/

/-- The event hands ENC the `LOADC` of this colour. -/
def Event.loads (r g b : Byte) (e : Event) : Prop :=
  e = .setColor r g b false ∨ ∃ cmd, decode cmd = .cmd (.loadc r g b) ∧ (e = .port cmd ∨ e = .issue cmd)

theorem State.nextLoads_of_loads {s : State} {e : Event} {rest : List Event} {r g b : Byte} (hi : s.inbox = e :: rest)
    (h : e.loads r g b) : s.nextLoads r g b := by
  refine ⟨rest, ?_⟩
  rw [hi]
  obtain rfl | ⟨cmd, hcmd, rfl | rfl⟩ := h
  · exact .inl rfl
  · exact .inr ⟨cmd, hcmd, .inl rfl⟩
  · exact .inr ⟨cmd, hcmd, .inr rfl⟩

section
variable {s t : State}

theorem payload_of_enc (h : t.enc = s.enc) : t.payload = s.payload := congrArg Enc.payload h

/-- A command that changes the payload is a `LOADC`. -/
theorem loadc_of_exec_payload {i : Instr} (h : exec i s = .next t) (hp : t.payload ≠ s.payload) :
    ∃ r g b, i = .loadc r g b ∧ t.payload = Payload.load r g b := by
  obtain ⟨-, ⟨c, rfl⟩ | ⟨idx, v, r, -, -, rfl⟩ | ⟨r, g, b, rfl, -, rfl⟩ | ⟨w, f, -, -, rfl⟩⟩ := exec_next_cases h
  · exact absurd rfl hp
  · exact absurd rfl hp
  · exact ⟨r, g, b, rfl, rfl⟩
  · exact absurd rfl hp

theorem loadc_of_hostRun_payload {i : Instr} (h : hostRun i s = .next t) (hp : t.payload ≠ s.payload) :
    ∃ r g b, i = .loadc r g b ∧ t.payload = Payload.load r g b := by
  obtain ⟨u, hrun, rfl⟩ := hostRun_next h
  rw [payload_of_enc (hostAbsorb_enc u i)] at hp ⊢
  exact loadc_of_exec_payload hrun hp

theorem loadc_of_encStep_payload {cmd : CmdWord} (h : encStep cmd s = .next t) (hp : t.payload ≠ s.payload) :
    ∃ r g b, decode cmd = .cmd (.loadc r g b) ∧ t.payload = Payload.load r g b := by
  obtain rfl | ⟨i, hi, hrun⟩ := encStep_cases h
  · exact absurd rfl hp
  · obtain ⟨r, g, b, rfl, hload⟩ := loadc_of_exec_payload hrun hp
    exact ⟨r, g, b, hi, hload⟩

theorem loadc_of_hostIssue_payload {cmd : CmdWord} (h : hostIssue cmd s = .next t) (hp : t.payload ≠ s.payload) :
    ∃ r g b, decode cmd = .cmd (.loadc r g b) ∧ t.payload = Payload.load r g b := by
  obtain rfl | ⟨b, rfl⟩ | ⟨i, hi, -, hrun⟩ := hostIssue_cases h
  · exact absurd rfl hp
  · exact absurd rfl hp
  · obtain ⟨r, g, b, rfl, hload⟩ := loadc_of_hostRun_payload hrun hp
    exact ⟨r, g, b, hi, hload⟩

theorem startTransmission_payload {r g b : Byte} {sf : Bool} (h : startTransmission r g b sf s = .next t)
    (hp : t.payload ≠ s.payload) : sf = false ∧ t.payload = Payload.load r g b := by
  obtain rfl | ⟨-, -, rfl⟩ | ⟨rfl, -, hrun⟩ := startTransmission_cases h
  · exact absurd rfl hp
  · exact absurd (payload_of_enc (failTransmission_enc _)) hp
  · obtain ⟨r', g', b', hi, hload⟩ := loadc_of_hostRun_payload hrun hp
    cases hi
    exact ⟨rfl, hload⟩

theorem pullRound_payload {free : CountWord} (h : pullRound free s = .next t) : t.payload = s.payload := by
  obtain rfl | ⟨-, -, hissue⟩ := pullRound_cases h
  · rfl
  · by_contra hp
    obtain ⟨r, g, b, hi, -⟩ := loadc_of_hostIssue_payload hissue hp
    rw [decode_encode rfl] at hi
    cases hi

theorem runEvent_payload {e : Event} (he : e ≠ .blockReset) (h : runEvent e s = .next t) (hp : t.payload ≠ s.payload) :
    ∃ r g b, e.loads r g b ∧ t.payload = Payload.load r g b := by
  have hkept (henc : t.enc = s.enc) : False := hp (payload_of_enc henc)
  cases e with
  | port cmd =>
    obtain ⟨r, g, b, hcmd, hload⟩ := loadc_of_encStep_payload h hp
    exact ⟨r, g, b, .inr ⟨cmd, hcmd, .inl rfl⟩, hload⟩
  | issue cmd =>
    obtain ⟨r, g, b, hcmd, hload⟩ := loadc_of_hostIssue_payload (hostAct_next h).2 hp
    exact ⟨r, g, b, .inr ⟨cmd, hcmd, .inr rfl⟩, hload⟩
  | cfgTiming hz t0h t0l t1h t1l rst =>
    cases (hostAct_next h).2
    exact absurd rfl hp
  | setColor r g b submitFails =>
    obtain ⟨rfl, hload⟩ := startTransmission_payload (hostAct_next h).2 hp
    exact ⟨r, g, b, .inl rfl, hload⟩
  | pull free => exact absurd (pullRound_payload (hostAct_next h).2) hp
  | drain drainFails =>
    cases (hostAct_next h).2
    exact (hkept (waitForDrain_enc s drainFails)).elim
  | acquireGpio ok => exact (hkept (acquireGpio_enc h)).elim
  | configureChannel ok => exact (hkept (bootStep_enc h)).elim
  | power on ok => exact (hkept (setPower_enc h)).elim
  | tick =>
    cases h
    exact (hkept (tick_enc s)).elim
  | blockReset => exact absurd rfl he

end

/-- Settles O14: an event that changes the payload hands ENC a `LOADC`, and block reset clears the mark. -/
theorem onlyLoadcWritesThePayload : Obligations.OnlyLoadcWritesThePayload := by
  unfold Obligations.OnlyLoadcWritesThePayload
  refine fun s t h => ⟨fun hn hp => ?_, fun hr => ?_⟩
  · cases hi : s.inbox with
    | nil =>
      rw [step_nil hi] at h
      cases h
      exact absurd (payload_of_enc (tick_enc s)) hp
    | cons e rest =>
      rw [step_cons hi] at h
      have he : e ≠ .blockReset := by
        rintro rfl
        simp [State.noReset, hi] at hn
      obtain ⟨r, g, b, hloads, hload⟩ := runEvent_payload he h hp
      exact ⟨r, g, b, State.nextLoads_of_loads hi hloads, hload⟩
  · obtain ⟨rest, -, rfl⟩ := step_reset_next hr h
    rfl

/-! ### Reset, the port and fixed values -/

/-- Settles O1: the table at the reset state, which a block reset goes back to. -/
theorem blockResetLeavesTheStatedValues : Obligations.BlockResetLeavesTheStatedValues := by
  unfold Obligations.BlockResetLeavesTheStatedValues
  refine ⟨?_, fun s rest hi => ⟨_, _, step_cons hi⟩⟩
  have hromz : rom Cfg.reset .zero = { lvl0 := true, dur0 := 7, lvl1 := false, dur1 := 14 } := by decide
  have hromo : rom Cfg.reset .one = { lvl0 := true, dur0 := 16, lvl1 := false, dur1 := 12 } := by decide
  have hromr : rom Cfg.reset .reset = { lvl0 := false, dur0 := 500, lvl1 := false, dur1 := 500 } := by decide
  exact ⟨rfl, rfl, rfl, rfl, rfl, rfl, hromz, hromo, hromr, rfl, fun i => memReadP_unwritten rfl i, rfl, rfl, rfl, rfl,
    rfl, rfl, rfl⟩

/-- Settles O2: the next event is the word, and ENC runs what it decodes to. -/
theorem stepRunsTheDecodedCommand : Obligations.StepRunsTheDecodedCommand := by
  unfold Obligations.StepRunsTheDecodedCommand
  have hport (s : State) (cmd : CmdWord) (rest : List Event) (i : Instr) (hi : s.inbox = .port cmd :: rest)
      (hcmd : decode cmd = .cmd i) : step s = exec i { s with inbox := rest } := by
    rw [step_cons hi]
    simp only [runEvent, encStep, hcmd]
  refine ⟨hport, fun s nbits w i hw => ?_⟩
  have hcmd : decode (tableWord nbits w) = .cmd i := by
    unfold decodeTableWord at hw
    split at hw <;> simp_all
  exact hport (s.withFetchWord nbits w) _ s.inbox i rfl hcmd

/-- Settles O17: the ROM computed and packed. -/
theorem romWordsAtReset : Obligations.RomWordsAtReset := by
  unfold Obligations.RomWordsAtReset
  decide

/-- Settles O31: both tables of numbers, row by row. -/
theorem faultCodeNumbers : Obligations.FaultCodeNumbers := by
  unfold Obligations.FaultCodeNumbers
  decide

end Sys2Proof.Machine

namespace Sys2Proof.Machine

/-! ### What a tick leaves unchanged (R83, R89) -/

theorem tick_frame (s : State) : tick s =
    { s with line := (tick s).line, ring := (tick s).ring, play := (tick s).play, draws := (tick s).draws,
             waited := (tick s).waited } := by
  obtain ⟨n, ht⟩ := tick_eq_pgTick s
  rw [ht, pgTick_frame]

/-- Settles O39: the tick is PG's, after HOST has counted its wait. -/
theorem tickFrame : Obligations.TickFrame := by
  unfold Obligations.TickFrame
  exact tick_frame

section
variable (s : State)

@[simp] theorem tick_en : (tick s).en = s.en := by
  rw [tick_frame]

@[simp] theorem disable_en : (disable s).en = false := by
  rw [disable_frame]

@[simp] theorem disable_line : (disable s).line = false := by
  rw [disable_frame]

end

/-- A disabled channel's tick makes the line low, and no more. -/
theorem pgTick_disabled {s : State} (h : s.en = false) : pgTick s = { s with line := false } := by
  simp [pgTick, h]

/-- Settles O37: a disabled PG only pulls the line low, and disabling does so at once. -/
theorem disabledLineIsLow : Obligations.DisabledLineIsLow := by
  unfold Obligations.DisabledLineIsLow
  refine ⟨fun s hen => ?_, fun s => ⟨disable_en s, disable_line s, disable_ring s⟩⟩
  obtain ⟨n, ht⟩ := tick_eq_pgTick s
  rw [ht, pgTick_disabled (s := { s with waited := n }) hen]
  exact ⟨rfl, rfl, rfl⟩

/-! ### The length of a waveform (R87) -/

/-- The symbols of a byte are those of its bits in the order they are sent. -/
theorem byteSymbols_eq_map_sentBits (c : Cfg) (byte : Byte) :
    byteSymbols c byte = (sentBits byte).map fun b => rom c (RomIndex.ofBit b) := rfl

theorem wave_append (a b : List Symbol) : wave (a ++ b) = wave a ++ wave b := List.flatMap_append

theorem levels_append (a b : List (Bool × Nat)) : levels (a ++ b) = levels a ++ levels b := List.flatMap_append

theorem levels_wave_append (a b : List Symbol) : levels (wave (a ++ b)) = levels (wave a) ++ levels (wave b) := by
  rw [wave_append, levels_append]

/-- The levels of one symbol, tick by tick. -/
theorem levels_wave_singleton (x : Symbol) : levels (wave [x]) = (List.range x.total).map x.levelAt := by
  rw [← replicate_parts_eq_map_levelAt]
  simp [levels, wave]

theorem levels_wave_cons (x : Symbol) (l : List Symbol) :
    levels (wave (x :: l)) = (List.range x.total).map x.levelAt ++ levels (wave l) := by
  rw [← levels_wave_singleton, ← levels_wave_append, List.singleton_append]

theorem levels_wave_length (l : List Symbol) : (levels (wave l)).length = (l.map Symbol.total).sum := by
  induction l with
  | nil => rfl
  | cons x l ih => simp [levels_wave_cons, ih]

/-- The ticks of a frame are those of its bits' symbols and of the RESET. -/
theorem sum_frame_total (c : Cfg) (payload : List Byte) :
    ((frame c payload).map Symbol.total).sum = frameTicks c payload := by
  have hbit (b : Bool) : (rom c (RomIndex.ofBit b)).total = if b then (rom c .one).total else (rom c .zero).total := by
    cases b <;> rfl
  simp only [frame, frameTicks, List.map_append, List.sum_append, List.map_flatMap, byteSymbols_eq_map_sentBits,
    List.map_map, Function.comp_def, hbit, List.map_singleton, List.sum_singleton, rom_reset_total]

/-- A weight for each bit, summed over a list, counts the bits. -/
theorem sum_map_ite_eq_count (m n : Nat) (bits : List Bool) :
    (bits.map fun b => if b then m else n).sum = n * bits.count false + m * bits.count true := by
  induction bits with
  | nil => simp
  | cons b bits ih =>
    rw [List.map_cons, List.sum_cons, ih]
    cases b <;> simp <;> ring

/-- Settles O35: the levels of the frame are counted symbol by symbol, and at reset bit by bit. -/
theorem frameLength : Obligations.FrameLength := by
  unfold Obligations.FrameLength
  refine ⟨fun c payload => (levels_wave_length _).trans (sum_frame_total c payload), fun g r b => ?_⟩
  intro bits
  have hone : (rom Cfg.reset .one).total = 28 := by decide
  have hzero : (rom Cfg.reset .zero).total = 21 := by decide
  have hreset : Cfg.reset.resetTicks = 1000 := by decide
  have hticks : frameTicks Cfg.reset [g, r, b] = 21 * bits.count false + 28 * bits.count true + 1000 := by
    simp only [frameTicks, hone, hzero, hreset, sum_map_ite_eq_count]
    rfl
  have hcount : bits.count false + bits.count true = 24 :=
    (List.count_false_add_count_true bits).trans rfl
  omega

/-! ### PG plays what it owes the line

While PG is steady - it plays without a gap, as long as anything is left - the levels it owes are known: those left of the symbol
in play, and those of `RING`. Each tick shows the first of them. -/

/-- The levels of a symbol from tick `e` on. -/
def Symbol.levelsFrom (x : Symbol) (e : Nat) : List Bool := ((List.range x.total).map x.levelAt).drop e

theorem Symbol.levelsFrom_lt {x : Symbol} {e : Nat} (h : e < x.total) :
    x.levelsFrom e = x.levelAt e :: x.levelsFrom (e + 1) := by
  unfold levelsFrom
  rw [List.drop_eq_getElem_cons (by simpa using h)]
  simp

theorem Symbol.levelsFrom_ge {x : Symbol} {e : Nat} (h : x.total ≤ e) : x.levelsFrom e = [] :=
  List.drop_of_length_le (by simpa using h)

/-- What is left of the symbol in play. -/
def Play.owed : Play → List Bool
  | .playing x e => x.levelsFrom e
  | _ => []

theorem Play.owed_idle : Play.idle.owed = [] := rfl

/-- What PG has still to put on the line. -/
def State.owed (s : State) : List Bool := s.play.owed ++ levels (wave s.ring)

/-- PG goes on without a gap: it is between two symbols or in one, or everything is played. -/
def Play.steady (ring : List Symbol) : Play → Prop
  | .idle => True
  | .playing x e => e < x.total
  | .starved _ => ring = []
  | .gap _ => False

/-- An enabled PG that plays without a gap what it owes. -/
structure State.Steady (s : State) : Prop where
  en : s.en = true
  ring_pos : ∀ x ∈ s.ring, 0 < x.total
  play_steady : s.play.steady s.ring

section
variable {s v : State} {x : Symbol} {e : Nat}

theorem levels_wave_eq_nil {l : List Symbol} (hpos : ∀ x ∈ l, 0 < x.total) (h : levels (wave l) = []) : l = [] := by
  cases l with
  | nil => rfl
  | cons x l =>
    have hlen : x.total + (l.map Symbol.total).sum = 0 := by
      rw [← List.sum_cons, ← List.map_cons, ← levels_wave_length, h, List.length_nil]
    have hx : 0 < x.total := hpos x List.mem_cons_self
    omega

/-- A steady PG that owes nothing has drained the line. -/
theorem State.Steady.drained (h : s.Steady) (ho : s.owed = []) : drained s = true := by
  obtain ⟨hplay, hring⟩ := List.append_eq_nil_iff.1 ho
  have hring := levels_wave_eq_nil h.ring_pos hring
  have hidle : s.play.busy = false := by
    cases hp : s.play with
    | playing x e =>
      have hlt : e < x.total := by
        have hsteady := h.play_steady
        rwa [hp] at hsteady
      rw [hp, Play.owed, Symbol.levelsFrom_lt hlt] at hplay
      cases hplay
    | idle => rfl
    | starved gapped => rfl
    | gap left => rfl
  simp [Machine.drained, hring, hidle]

/-- A tick of a symbol shows its level, and what is owed next is the rest. -/
theorem playTick_steady (hen : v.en = true) (hpos : ∀ y ∈ v.ring, 0 < y.total) (he : e < x.total) :
    (playTick x e v).Steady ∧
      (playTick x e v).line :: (playTick x e v).owed = x.levelsFrom e ++ levels (wave v.ring) := by
  have hen' : (playTick x e v).en = true := (playTick_en x e v).trans hen
  have hpos' : ∀ y ∈ (playTick x e v).ring, 0 < y.total := by rwa [playTick_ring]
  rw [playTick_line, State.owed, playTick_ring, Symbol.levelsFrom_lt he, List.cons_append]
  by_cases hlt : e + 1 < x.total
  · have hplay := playTick_play (s := v) hlt
    rw [hplay]
    refine ⟨⟨hen', hpos', ?_⟩, rfl⟩
    rw [hplay]
    exact hlt
  · have hplay : (playTick x e v).play = if v.ring.isEmpty then .starved false else .idle := by simp [playTick, hlt]
    rw [Symbol.levelsFrom_ge (not_lt.1 hlt), hplay]
    refine ⟨⟨hen', hpos', ?_⟩, ?_⟩
    · rw [hplay, playTick_ring]
      split
      · next hempty => exact List.isEmpty_iff.1 hempty
      · trivial
    · split <;> rfl

/-- The tick in which PG begins the head of `RING`. -/
theorem startTick_steady (hen : v.en = true) (hpos : ∀ y ∈ v.ring, 0 < y.total) (hne : v.ring ≠ []) :
    (startTick v).Steady ∧ (startTick v).line :: (startTick v).owed = levels (wave v.ring) := by
  obtain ⟨x, rest, hring⟩ := List.exists_cons_of_ne_nil hne
  rw [hring] at hpos
  have hx : 0 < x.total := hpos x List.mem_cons_self
  rw [startTick_cons hring hx, hring, levels_wave_cons]
  exact playTick_steady (v := { v with ring := rest }) hen (fun y hy => hpos y (List.mem_cons_of_mem x hy)) hx

/-- A tick is PG's, on a state that differs from this one in HOST's count of its wait only. -/
theorem exists_tick_eq_pgTick (s : State) :
    ∃ v : State, tick s = pgTick v ∧ v.en = s.en ∧ v.ring = s.ring ∧ v.play = s.play ∧ v.draws = s.draws := by
  obtain ⟨n, ht⟩ := tick_eq_pgTick s
  exact ⟨{ s with waited := n }, ht, rfl, rfl, rfl, rfl⟩

theorem levels_wave_nil : levels (wave []) = [] := rfl

/-- A steady PG that owes something pays it in the next tick and stays steady. -/
theorem State.Steady.tick (h : s.Steady) (ho : s.owed ≠ []) :
    (tick s).Steady ∧ (tick s).line :: (tick s).owed = s.owed := by
  obtain ⟨hen, hpos, hsteady⟩ := h
  obtain ⟨v, ht, hen', hring, hplay, -⟩ := exists_tick_eq_pgTick s
  have howed : s.owed = s.play.owed ++ levels (wave v.ring) := by rw [hring, State.owed]
  rw [← hen'] at hen
  rw [← hring] at hpos hsteady
  rw [howed] at ho ⊢
  rw [ht]
  cases hp : s.play with
  | idle =>
    rw [hp, Play.owed_idle, List.nil_append] at ho
    rw [Play.owed_idle, List.nil_append, pgTick_idle hen (hplay.trans hp)]
    refine startTick_steady hen hpos fun hnil => ho ?_
    rw [hnil, levels_wave_nil]
  | playing x e =>
    rw [hp] at hsteady
    rw [Play.owed, pgTick_playing hen (hplay.trans hp)]
    exact playTick_steady hen hpos hsteady
  | starved gapped =>
    rw [hp] at hsteady ho
    have hnil : v.ring = [] := hsteady
    rw [hnil] at ho
    exact absurd rfl ho
  | gap left =>
    rw [hp] at hsteady
    exact hsteady.elim

/-- A steady PG shows what it owes, level by level. -/
theorem State.Steady.ticks (h : s.Steady) {n : Nat} (hn : n ≤ s.owed.length) :
    (ticksFrom n s).Steady ∧ lineTrace n s = s.owed.take n ∧ (ticksFrom n s).owed = s.owed.drop n := by
  induction n generalizing s with
  | zero => exact ⟨h, rfl, rfl⟩
  | succ n ih =>
    have hne : s.owed ≠ [] := List.ne_nil_of_length_pos (by omega)
    obtain ⟨hsteady, howed⟩ := h.tick hne
    rw [← howed] at hn ⊢
    obtain ⟨hsteady', hline, howed'⟩ := ih hsteady (by simpa using hn)
    exact ⟨hsteady', by rw [lineTrace, hline, List.take_succ_cons], by rw [List.drop_succ_cons]; exact howed'⟩

/-- From a tick on which PG is steady, the line shows all that is owed, and is then drained. -/
theorem lineTrace_of_steady_tick {l : List Bool} (h : (Machine.tick s).Steady)
    (hl : (Machine.tick s).line :: (Machine.tick s).owed = l) :
    lineTrace l.length s = l ∧ drained (ticksFrom l.length s) = true := by
  obtain ⟨hsteady, hline, howed⟩ := h.ticks le_rfl
  rw [← hl]
  exact ⟨by rw [List.length_cons, lineTrace, hline, List.take_length], hsteady.drained (howed.trans List.drop_length)⟩

/-- A steady PG that owes nothing but `RING` begins it in the next tick. -/
theorem steady_of_idle (hen : s.en = true) (hp : s.play = .idle) (hpos : ∀ x ∈ s.ring, 0 < x.total) : s.Steady :=
  ⟨hen, hpos, by rw [hp]; trivial⟩

theorem owed_of_idle (hp : s.play = .idle) : s.owed = levels (wave s.ring) := by
  rw [State.owed, hp, Play.owed_idle, List.nil_append]

end

/-- Settles O34: an idle PG owes the waveform of `RING`, and pays it level by level. -/
theorem ringIsPlayedBackToBack : Obligations.RingIsPlayedBackToBack := by
  unfold Obligations.RingIsPlayedBackToBack
  intro s hen hp hpos n
  have hn : n = s.owed.length := by rw [owed_of_idle hp, levels_wave_length]
  obtain ⟨hsteady, hline, howed⟩ := (steady_of_idle hen hp hpos).ticks hn.le
  rw [hn] at hline howed hsteady ⊢
  exact ⟨by rw [hline, List.take_length, owed_of_idle hp], hsteady.drained (howed.trans List.drop_length)⟩

/-! ### Underruns (R85) -/

section
variable {s v : State}

theorem pgTick_starved_nil {gapped : Bool} (hen : s.en = true) (hp : s.play = .starved gapped) (hr : s.ring = []) :
    pgTick s = { s with line := false, play := .starved true } := by
  simp [pgTick, hen, hp, hr]

theorem pgTick_starved {gapped : Bool} (hen : s.en = true) (hp : s.play = .starved gapped) (hr : s.ring ≠ []) :
    pgTick s = gapTick (Config.gapTicks s.draws + if gapped then 0 else 1) { s with draws := s.draws + 1 } := by
  obtain ⟨x, rest, hring⟩ := List.exists_cons_of_ne_nil hr
  simp [pgTick, hen, hp, hring]

theorem pgTick_gap {left : Nat} (hen : s.en = true) (hp : s.play = .gap left) : pgTick s = gapTick left s := by
  simp [pgTick, hen, hp]

/-- A gap of `left` more ticks is low for as long, and then `RING` is played whole. -/
theorem lineTrace_of_gapTick (left : Nat) (ht : tick s = gapTick left v) (hen : v.en = true) (hne : v.ring ≠ [])
    (hpos : ∀ x ∈ v.ring, 0 < x.total) :
    lineTrace (left + (v.ring.map Symbol.total).sum) s = List.replicate left false ++ levels (wave v.ring) ∧
      drained (ticksFrom (left + (v.ring.map Symbol.total).sum) s) = true := by
  induction left generalizing s v with
  | zero =>
    obtain ⟨hsteady, hl⟩ := startTick_steady hen hpos hne
    have ht : tick s = startTick v := ht
    rw [← ht] at hsteady hl
    rw [Nat.zero_add, ← levels_wave_length]
    exact lineTrace_of_steady_tick hsteady hl
  | succ n ih =>
    have ht : tick s = { v with line := false, play := .gap n } := ht
    obtain ⟨u, htick, hen', hring, hplay, -⟩ := exists_tick_eq_pgTick (tick s)
    rw [ht] at hen' hring hplay
    have hring : u.ring = v.ring := hring
    rw [← hring] at hne hpos ⊢
    have hen : u.en = true := hen'.trans hen
    rw [pgTick_gap hen hplay] at htick
    obtain ⟨hline, hdrained⟩ := ih htick hen hne hpos
    rw [Nat.add_right_comm]
    refine ⟨?_, hdrained⟩
    rw [lineTrace, hline, ht]
    rfl

end

/-- Settles O36: the last tick of a symbol with nothing behind it starves PG, an empty `RING` keeps it low, and the gap that
follows ends with `RING` played whole. -/
theorem underrunIdlesLow : Obligations.UnderrunIdlesLow := by
  unfold Obligations.UnderrunIdlesLow
  refine ⟨fun s x e hen hp he hr => ?_, fun s g hen hp hr => ?_, fun s hen hp => ?_, fun s g hen hp hr hpos => ?_⟩ <;>
    obtain ⟨v, ht, hen', hring, hplay, -⟩ := exists_tick_eq_pgTick s <;>
    rw [← hen'] at hen <;> rw [← hplay] at hp
  · rw [ht, pgTick_playing hen hp]
    simp [playTick, not_lt.2 he, hring, hr]
  · rw [ht, pgTick_starved_nil hen hp (hring.trans hr)]
    exact ⟨rfl, rfl⟩
  · by_cases hr : v.ring = []
    · rw [ht, pgTick_starved_nil hen hp hr]
    · rw [ht, pgTick_starved hen hp hr]
      rfl
  · rw [← hring] at hr hpos ⊢
    rw [pgTick_starved hen hp hr] at ht
    refine ⟨Config.gapTicks v.draws + if g then 0 else 1, ?_,
      lineTrace_of_gapTick (v := { v with draws := v.draws + 1 }) _ ht hen hr hpos⟩
    rintro rfl
    exact Nat.succ_pos _

/-! ### The line drains in finite time (R90) -/

/-- Some number of ticks drains the line. -/
def State.Drains (s : State) : Prop := ∃ n, drained (ticksFrom n s) = true

section
variable {s v : State}

theorem State.Drains.of_tick (h : (tick s).Drains) : s.Drains := by
  obtain ⟨n, hn⟩ := h
  exact ⟨n + 1, hn⟩

theorem startTick_en (v : State) : (startTick v).en = v.en := by
  rw [startTick_frame]

/-- Beginning the head takes it, and any symbols of no ticks before it. -/
theorem startTick_ring_length (hne : v.ring ≠ []) : (startTick v).ring.length < v.ring.length := by
  have hpos : 0 < v.ring.length := List.length_pos_of_ne_nil hne
  unfold startTick
  split
  · next x rest htake =>
    obtain ⟨skipped, hring, -, -⟩ := takeHead_some htake
    rw [playTick_ring, hring, List.length_append, List.length_cons]
    show rest.length < _
    omega
  · exact hpos

/-- A gap drains if every shorter `RING` does. -/
theorem drains_of_gapTick (left : Nat) (ih : ∀ u : State, u.en = true → u.ring.length < v.ring.length → u.Drains)
    (hen : v.en = true) (hne : v.ring ≠ []) : (gapTick left v).Drains := by
  induction left generalizing v with
  | zero => exact ih (startTick v) ((startTick_en v).trans hen) (startTick_ring_length hne)
  | succ n ihn =>
    refine .of_tick ?_
    obtain ⟨u, ht, hen', hring, hplay, -⟩ := exists_tick_eq_pgTick (gapTick (n + 1) v)
    have hring : u.ring = v.ring := hring
    rw [← hring] at ih hne
    have hen : u.en = true := hen'.trans hen
    rw [ht, pgTick_gap hen hplay]
    exact ihn ih hen hne

/-- PG between symbols drains if it does with every shorter `RING`. -/
theorem drains_of_not_busy (ih : ∀ u : State, u.en = true → u.ring.length < s.ring.length → u.Drains) (hen : s.en = true)
    (hbusy : s.play.busy = false) : s.Drains := by
  by_cases hne : s.ring = []
  · exact ⟨0, by simp [ticksFrom, drained, hne, hbusy]⟩
  refine State.Drains.of_tick ?_
  obtain ⟨v, ht, hen', hring, hplay, -⟩ := exists_tick_eq_pgTick s
  rw [← hen'] at hen
  rw [← hring] at hne ih
  rw [ht]
  cases hp : s.play with
  | idle =>
    rw [pgTick_idle hen (hplay.trans hp)]
    exact ih _ ((startTick_en v).trans hen) (startTick_ring_length hne)
  | playing x e =>
    rw [hp] at hbusy
    cases hbusy
  | starved gapped =>
    rw [pgTick_starved hen (hplay.trans hp) hne]
    exact drains_of_gapTick _ ih hen hne
  | gap left =>
    rw [pgTick_gap hen (hplay.trans hp)]
    exact drains_of_gapTick left ih hen hne

/-- The last tick of a symbol leaves PG between symbols. -/
theorem drains_of_last_tick {x : Symbol} {e : Nat}
    (ih : ∀ u : State, u.en = true → u.ring.length < s.ring.length → u.Drains) (hen : s.en = true)
    (hp : s.play = .playing x e) (he : x.total ≤ e + 1) : (tick s).Drains := by
  obtain ⟨v, ht, hen', hring, hplay, -⟩ := exists_tick_eq_pgTick s
  rw [← hen'] at hen
  rw [← hring] at ih
  rw [ht, pgTick_playing hen (hplay.trans hp)]
  refine drains_of_not_busy ?_ ((playTick_en x e v).trans hen) ?_
  · rwa [playTick_ring]
  · rw [playTick, if_neg (not_lt.2 he)]
    show Play.busy (if v.ring.isEmpty then .starved false else .idle) = false
    split <;> rfl

/-- A symbol in play comes to its end, and PG is then between symbols with the same `RING`. -/
theorem drains_of_playing {x : Symbol} {e : Nat} (left : Nat)
    (ih : ∀ u : State, u.en = true → u.ring.length < s.ring.length → u.Drains) (hen : s.en = true)
    (hp : s.play = .playing x e) (hleft : x.total ≤ e + left) : s.Drains := by
  induction left generalizing s e with
  | zero => exact .of_tick (drains_of_last_tick ih hen hp (by omega))
  | succ n ihn =>
    by_cases hlt : e + 1 < x.total
    · refine .of_tick ?_
      obtain ⟨v, ht, hen', hring, hplay, -⟩ := exists_tick_eq_pgTick s
      rw [← hen'] at hen
      rw [← hring] at ih
      rw [ht, pgTick_playing hen (hplay.trans hp)]
      refine ihn ?_ ((playTick_en x e v).trans hen) (playTick_play hlt) (by omega)
      rwa [playTick_ring]
    · exact .of_tick (drains_of_last_tick ih hen hp (by omega))

/-- Settles O38: by induction on the length of `RING`, whatever PG is doing. -/
theorem enabledRingDrains : Obligations.EnabledRingDrains := by
  unfold Obligations.EnabledRingDrains
  suffices h : ∀ k, ∀ s : State, s.en = true → s.ring.length = k → s.Drains from fun s hen => h _ s hen rfl
  intro k
  induction k using Nat.strong_induction_on with
  | _ k ihk =>
    rintro s hen rfl
    have ih (u : State) (hu : u.en = true) (hlt : u.ring.length < s.ring.length) : u.Drains := ihk _ hlt u hu rfl
    cases hp : s.play with
    | playing x e => exact drains_of_playing x.total ih hen hp (Nat.le_add_left _ _)
    | idle => exact drains_of_not_busy ih hen (by rw [hp]; rfl)
    | starved gapped => exact drains_of_not_busy ih hen (by rw [hp]; rfl)
    | gap left => exact drains_of_not_busy ih hen (by rw [hp]; rfl)

end
end Sys2Proof.Machine

namespace Sys2Proof.Machine

/-! ### HOST's steps, by their events -/

section
variable {s t u : State} {rest : List Event}

/-- A step of HOST's whose run goes on is its act. -/
theorem step_hostAct {e : Event} {act : Host.Outcome State Fault Refusal} (hr : s.hostRuns) (hi : s.inbox = e :: rest)
    (he : runEvent e { s with inbox := rest } = hostAct { s with inbox := rest } act) : step s = act := by
  rw [step_cons hi, he]
  exact hostAct_runs hr

theorem step_issue {cmd : CmdWord} (hr : s.hostRuns) (hi : s.inbox = .issue cmd :: rest) :
    step s = hostIssue cmd { s with inbox := rest } := step_hostAct hr hi rfl

theorem step_pull {f : CountWord} (hr : s.hostRuns) (hi : s.inbox = .pull f :: rest) :
    step s = pullRound f { s with inbox := rest } := step_hostAct hr hi rfl

theorem step_setColor {r g b : Byte} {sf : Bool} (hr : s.hostRuns) (hi : s.inbox = .setColor r g b sf :: rest) :
    step s = startTransmission r g b sf { s with inbox := rest } := step_hostAct hr hi rfl

theorem step_drain {d : Bool} (hr : s.hostRuns) (hi : s.inbox = .drain d :: rest) :
    step s = .next (waitForDrain d { s with inbox := rest }) := step_hostAct hr hi rfl

theorem step_cfgTiming {hz t0h t0l t1h t1l rst : CfgWord} (hr : s.hostRuns)
    (hi : s.inbox = .cfgTiming hz t0h t0l t1h t1l rst :: rest) :
    step s = .next { s with inbox := (cfgTimingWords hz t0h t0l t1h t1l rst).map .issue ++ rest } := step_hostAct hr hi rfl

/-- The event of a step that only a HOST can take is guarded by HOST's run. -/
theorem Event.isHosts.runEvent_eq {e : Event} (h : e.isHosts) (s : State) : ∃ act, runEvent e s = hostAct s act := by
  obtain ⟨cmd, rfl⟩ | ⟨_, _, _, _, _, _, rfl⟩ | ⟨_, _, _, _, rfl⟩ | ⟨_, rfl⟩ | ⟨_, rfl⟩ := h <;> exact ⟨_, rfl⟩

/-! #### A command HOST issues -/

theorem hostIssue_illegal {cmd : CmdWord} {why : IllegalWord} (hd : decode cmd = .illegal why) (hs : s.fault = none) :
    hostIssue cmd s = .next (raiseFault .illegalCmd cmd s) := by
  simp only [hostIssue, hd]
  exact encStep_illegal hd hs

theorem hostIssue_breach {cmd : CmdWord} {i : Instr} {b : HostFault} (hd : decode cmd = .cmd i)
    (hb : hostBreach i s = some b) : hostIssue cmd s = .next { s with hfault := some b } := by
  simp only [hostIssue, hd, hb]

theorem hostIssue_run {cmd : CmdWord} {i : Instr} (hd : decode cmd = .cmd i) (hb : hostBreach i s = none) :
    hostIssue cmd s = hostRun i s := by
  simp only [hostIssue, hd, hb]

theorem hostBreach_loadc (r g b : Byte) (s : State) :
    hostBreach (.loadc r g b) s = if s.active then some .overlap else none := rfl

section
variable {w f : CountWord} {d : Bool}

theorem hostBreach_pull_afterDone (hc : s.cursorSet = true) (hd : s.done = true) :
    hostBreach (.pull w f false) s = some .afterDone := by
  simp [hostBreach, hc, hd]

theorem hostBreach_pull_order (hc : s.cursorSet = true) (hd : ¬(s.done = true ∧ d = false))
    (hw : w.toNat ≠ s.w ∨ d ≠ s.done) : hostBreach (.pull w f d) s = some .order := by
  rw [hostBreach, if_neg (fun h => hd h.2), if_pos ⟨hc, hw⟩]

/-- A cursor that is threaded faithfully, if there is one, leaves the duty on `free` (R94). -/
theorem hostBreach_pull_threaded (hc : s.cursorSet = true → w.toNat = s.w ∧ d = s.done) :
    hostBreach (.pull w f d) s = if s.par.ringDepth - s.ring.length < f.toNat then some .freeOverstated else none := by
  rw [hostBreach, if_neg, if_neg]
  · rfl
  · rintro ⟨hset, hw | hd⟩
    · exact hw (hc hset).1
    · exact hd (hc hset).2
  · rintro ⟨hset, hdone, rfl⟩
    rw [← (hc hset).2] at hdone
    cases hdone

theorem hostBreach_pull_overstated (hc : s.cursorSet = true → w.toNat = s.w ∧ d = s.done)
    (hf : s.par.ringDepth - s.ring.length < f.toNat) : hostBreach (.pull w f d) s = some .freeOverstated := by
  rw [hostBreach_pull_threaded hc, if_pos hf]

theorem hostBreach_pull_dutiful (hc : s.cursorSet = true → w.toNat = s.w ∧ d = s.done)
    (hf : f.toNat ≤ s.par.ringDepth - s.ring.length) : hostBreach (.pull w f d) s = none := by
  rw [hostBreach_pull_threaded hc, if_neg (not_lt.2 hf)]

end

/-- An ENC that takes commands answers every command. -/
theorem exec_answers (i : Instr) (hs : s.fault = none) : ∃ v, exec i s = .next v := by
  have hcommand (cmd : CmdWord) (r : Except EncFault State) : ∃ v, command cmd s r = .next v := by
    cases r with
    | error c => exact ⟨_, command_error hs⟩
    | ok v => exact ⟨v, command_ok hs⟩
  cases i <;> exact hcommand _ _

theorem hostRun_of_fault {i : Instr} {c : EncFault} (h : exec i s = .next (raiseFault c (encode i) s)) :
    hostRun i s = .next (raiseFault c (encode i) s) := by
  rw [hostRun_of_exec h, hostAbsorb_raiseFault]

/-- HOST does nothing with a `CFGW`'s response. -/
theorem hostAbsorb_cfgw_eq (idx : BitVec 4) (v : CfgWord) (s : State) : hostAbsorb (.cfgw idx v) s = s := by
  unfold hostAbsorb
  split
  · rfl
  · split <;> rfl

theorem hostRun_loadc_valid (r g b : Byte) (hs : s.fault = none) (hv : s.cfg.valid = true) :
    hostRun (.loadc r g b) s =
      .next { respond [] false { s with payload := Payload.load r g b, cfgLock := true } with
                w := 0, done := false, cursorSet := true } := by
  rw [hostRun_of_exec (exec_loadc_valid r g b hs hv), hostAbsorb_loadc]

/-! #### `SET_COLOR`'s start -/

theorem startTransmission_overlap {r g b : Byte} {sf : Bool} (ha : s.active = true) :
    startTransmission r g b sf s = .next { s with hfault := some .overlap } := by
  simp [startTransmission, ha]

theorem startTransmission_fails {r g b : Byte} (ha : s.active = false) :
    startTransmission r g b true s = .next (failTransmission { s with active := true, en := true }) := by
  simp [startTransmission, ha]

theorem startTransmission_submitted {r g b : Byte} (ha : s.active = false) :
    startTransmission r g b false s =
      hostRun (.loadc r g b) { s with active := true, en := true, waited := 0, ret := none } := by
  simp [startTransmission, ha]

theorem pullRound_in_loop {f : CountWord} (ha : s.active = true) (hd : s.done = false) :
    pullRound f s = hostIssue (encode (.pull (BitVec.ofNat 16 s.w) f false)) s := by
  simp [pullRound, ha, hd]

/-- What releases a channel leaves of the machine (R91). -/
theorem failTransmission_frame (s : State) : failTransmission s =
    { s with en := false, active := false, line := false, ret := some .fail, play := (failTransmission s).play,
             draws := (failTransmission s).draws } := by
  unfold failTransmission
  rw [disable_frame]

theorem completeTransmission_frame (s : State) : completeTransmission s =
    { s with en := false, active := false, line := false, ret := some .ok, play := (completeTransmission s).play,
             draws := (completeTransmission s).draws } := by
  unfold completeTransmission
  rw [disable_frame]

end

/-- Settles O40: the submit succeeds, and HOST's `LOADC` of a valid configuration makes a fresh cursor. -/
theorem setColorStartsATransmission : Obligations.SetColorStartsATransmission := by
  unfold Obligations.SetColorStartsATransmission
  intro s r g b rest hr ha hv hi
  rw [step_setColor hr hi, startTransmission_submitted (s := { s with inbox := rest }) ha]
  exact hostRun_loadc_valid r g b hr.1 hv

/-- Settles O41: the channel is released before any command. -/
theorem submitFailureReleasesTheChannel : Obligations.SubmitFailureReleasesTheChannel := by
  unfold Obligations.SubmitFailureReleasesTheChannel
  intro s r g b rest hr ha hi
  rw [step_setColor hr hi, startTransmission_fails (s := { s with inbox := rest }) ha, failTransmission_frame]
  exact ⟨_, rfl, rfl, rfl, rfl, rfl, rfl⟩

/-- Settles O42: each of HOST's ways to ENC ends in `raiseFault`, and the first check that fails gives the code. -/
theorem faultsEndHostsRun : Obligations.FaultsEndHostsRun := by
  unfold Obligations.FaultsEndHostsRun
  intro s rest hr faulted
  have hs : s.fault = none := hr.1
  have hcheck {i : Instr} (hi : s.inbox = .issue (encode i) :: rest) (hw : i.wellFormed = true)
      (hb : hostBreach i { s with inbox := rest } = none) : step s = hostRun i { s with inbox := rest } := by
    rw [step_issue hr hi, hostIssue_run (decode_encode hw) hb]
  refine ⟨fun cmd t c hi hstep hc => ?_, fun f t c hi hstep hc => ?_, fun r g b sf t c hi hstep hc => ?_,
    fun cmd hi hcmd => ?_, fun idx v hi hidx hl => ?_, fun r g b hi ha hv => ?_, fun f hi ha hd hp hw hcap hfree => ?_,
    fun r g b hi ha hv => ?_⟩
  · rw [step_issue hr hi] at hstep
    exact hostIssue_fault (s := { s with inbox := rest }) hs hstep hc
  · rw [step_pull hr hi] at hstep
    have ht := pullRound_fault (s := { s with inbox := rest }) hs hstep hc
    refine ⟨ht, fun hinv => ?_⟩
    obtain rfl | ⟨ha, -, -⟩ := pullRound_cases hstep
    · exact absurd hc (not_fault_of_enc hs rfl)
    · rw [ht]
      exact hinv.ret_open ha
  · rw [step_setColor hr hi] at hstep
    obtain rfl | ⟨-, -, rfl⟩ | ⟨-, -, hrun⟩ := startTransmission_cases hstep
    · exact absurd hc (not_fault_of_enc hs rfl)
    · exact absurd hc (not_fault_of_enc hs (failTransmission_enc _))
    · exact hostRun_fault hrun hc
  · obtain ⟨why, hwhy⟩ := (decode_illegal_iff_reservedWord cmd).2 hcmd
    rw [step_issue hr hi]
    exact hostIssue_illegal hwhy hs
  · rw [hcheck hi (decide_eq_true hidx) rfl]
    exact hostRun_of_fault (exec_cfgw_lockFault (s := { s with inbox := rest }) v hs hidx hl)
  · rw [hcheck hi rfl (by rw [hostBreach_loadc]; simp [ha])]
    exact hostRun_of_fault (exec_loadc_invalid (s := { s with inbox := rest }) r g b hs hv)
  · simp only [List.mem_cons, List.not_mem_nil, or_false] at hw
    have hwnat : (BitVec.ofNat 16 s.w).toNat = s.w := by
      rw [BitVec.toNat_ofNat]
      omega
    rw [step_pull hr hi, pullRound_in_loop (s := { s with inbox := rest }) ha hd, hostIssue_run (decode_encode rfl)]
    · exact hostRun_of_fault (exec_pull_fault (s := { s with inbox := rest }) hs
        (pullCheck_overCap hp (by rw [hwnat]; omega) (by rw [hwnat]; omega) hcap))
    · exact hostBreach_pull_dutiful (fun _ => ⟨hwnat, hd.symm⟩) hfree
  · rw [step_setColor hr hi, startTransmission_submitted (s := { s with inbox := rest }) ha]
    exact hostRun_of_fault (exec_loadc_invalid r g b hs hv)

/-- Settles O43: no duty stands in the way, and HOST absorbs what ENC answers. -/
theorem breachFreeCommandsReachEnc : Obligations.BreachFreeCommandsReachEnc := by
  unfold Obligations.BreachFreeCommandsReachEnc
  intro s cmd rest hr hi u
  have hs : u.fault = none := hr.1
  have hrun {i : Instr} (hd : decode cmd = .cmd i) (hb : hostBreach i u = none) : step s = hostRun i u := by
    rw [step_issue hr hi, hostIssue_run hd hb]
  refine ⟨fun idx v hd => ?_, fun r g b hd ha hv => ?_, fun w f d hd hc hf => ?_⟩
  · obtain ⟨t, ht⟩ := exec_answers (.cfgw idx v) hs
    refine ⟨t, ht, ?_⟩
    rw [hrun hd rfl, hostRun_of_exec ht, hostAbsorb_cfgw_eq]
  · rw [hrun hd (by rw [hostBreach_loadc]; simp [u, ha])]
    exact hostRun_loadc_valid r g b hs hv
  · obtain ⟨t, ht⟩ := exec_answers (.pull w f d) hs
    rw [hrun hd (hostBreach_pull_dutiful hc hf), hostRun_of_exec ht]
    obtain ⟨-, ⟨c, rfl⟩ | ⟨_, _, _, hpull, -⟩ | ⟨_, _, _, hpull, -⟩ | ⟨w', f', hpull, -, rfl⟩⟩ := exec_next_cases ht
    · exact ⟨_, _, ht, rfl, fun _ => by rw [hostAbsorb_raiseFault], nofun⟩
    · cases hpull
    · cases hpull
    · cases hpull
      refine ⟨_, _, ht, rfl, fun h => absurd rfl h, fun _ => ?_⟩
      rw [hostAbsorb_pull]
      rfl

/-- Settles O44: the duty that is breached, and HOST's guard against every further step. -/
theorem breachesStopHost : Obligations.BreachesStopHost := by
  unfold Obligations.BreachesStopHost
  refine ⟨fun s cmd rest i hr hi hd => ?_, fun s r g b sf rest hr hi ha => ?_, fun s b e rest hs hb hi he => ?_⟩
  · intro breach
    have hbreach {b : HostFault} (hb : hostBreach i { s with inbox := rest } = some b) : breach b := by
      show step s = _
      rw [step_issue hr hi, hostIssue_breach hd hb]
    refine ⟨?_, ?_, ?_, ?_⟩
    · rintro r g b rfl ha
      exact hbreach (by rw [hostBreach_loadc]; simp [ha])
    · rintro w f rfl hc hdone
      exact hbreach (hostBreach_pull_afterDone hc hdone)
    · rintro w f d rfl hc hdone hw
      exact hbreach (hostBreach_pull_order hc hdone hw)
    · rintro w f d rfl hc hf
      exact hbreach (hostBreach_pull_overstated hc hf)
  · rw [step_setColor hr hi, startTransmission_overlap (s := { s with inbox := rest }) ha]
  · obtain ⟨act, hact⟩ := he.runEvent_eq { s with inbox := rest }
    rw [step_cons hi, hact]
    simp [hostAct, hs, hb]

/-- A round that is no breach passes at most the free slots: below 8 of them it stalls. -/
theorem pullRound_few_slots {s t : State} {f : CountWord} (hfew : s.par.ringDepth - s.ring.length < 8)
    (h : pullRound f s = .next t) : t.w = s.w ∧ t.done = s.done ∧ t.ring = s.ring := by
  obtain rfl | ⟨-, hdone, hissue⟩ := pullRound_cases h
  · exact ⟨rfl, rfl, rfl⟩
  obtain rfl | ⟨b, rfl⟩ | ⟨i, hd, hb, hrun⟩ := hostIssue_cases hissue
  · exact ⟨rfl, rfl, rfl⟩
  · exact ⟨rfl, rfl, rfl⟩
  rw [decode_encode rfl] at hd
  cases hd
  obtain ⟨-, hfree⟩ := hostBreach_pull_none hb
  obtain ⟨-, ⟨c, rfl⟩ | ⟨_, _, _, hpull, -⟩ | ⟨_, _, _, hpull, -⟩ | ⟨w, f', hpull, hc, rfl⟩⟩ := hostRun_cases hrun
  · exact ⟨rfl, rfl, rfl⟩
  · cases hpull
  · cases hpull
  · cases hpull
    obtain ⟨-, harm, hslots⟩ | ⟨hf, -⟩ | ⟨hf, -⟩ := pull_arms s.cfg hc
    · rw [hostAbsorb_pull, hslots, harm]
      simp [doneOut, hdone]
    · exact absurd (hf.trans hfree) (not_le.2 hfew)
    · exact absurd (hf.trans hfree) (not_le.2 hfew)

/-- Settles O46: the round stalls, or is a breach or a fault. -/
theorem fewSlotsStallTheTransmission : Obligations.FewSlotsStallTheTransmission := by
  unfold Obligations.FewSlotsStallTheTransmission
  intro s t f rest hfew hi hstep
  rw [step_cons hi] at hstep
  exact pullRound_few_slots (s := { s with inbox := rest }) hfew (hostAct_next hstep).2

/-! ### The end of `SET_COLOR` (R91, R93, R96) -/

section
variable {s : State}

theorem waitForDrain_fails (ha : s.active = true) : waitForDrain true s = failTransmission s := by
  simp [waitForDrain, ha]

theorem waitForDrain_in_loop (hd : s.done = false) : waitForDrain false s = s := by
  simp [waitForDrain, hd]

/-- Once the loop is over a timeout ends the wait, then a drained line does, and otherwise HOST waits on. -/
theorem waitForDrain_after_loop (ha : s.active = true) (hd : s.done = true) :
    waitForDrain false s =
      if timedOut s then failTransmission s else if drained s then completeTransmission s else s := by
  simp [waitForDrain, ha, hd]

theorem waitForDrain_timeout (d : Bool) (ha : s.active = true) (hd : s.done = true) (ht : timedOut s = true) :
    waitForDrain d s = failTransmission s := by
  simp [waitForDrain, ha, hd, ht]

theorem timedOut_unbounded (h : s.par.drainTimeout = none) : timedOut s = false := by
  simp [timedOut, h]

theorem timedOut_bounded {bound : Nat} (h : s.par.drainTimeout = some bound) :
    timedOut s = true ↔ bound < s.waited ∨ (drained s = false ∧ bound ≤ s.waited) := by
  simp [timedOut, h]

end

/-- Settles O47: a failing drain and a timeout release the channel with `FAIL`, a drained line after the loop with `OK`. -/
theorem drainEndsTheTransmission : Obligations.DrainEndsTheTransmission := by
  unfold Obligations.DrainEndsTheTransmission
  intro s d rest hr ha hi ends waitsOn
  obtain ⟨u, hu⟩ : ∃ u, u = ({ s with inbox := rest } : State) := ⟨_, rfl⟩
  have hstep : step s = .next (waitForDrain d u) := by rw [step_drain hr hi, hu]
  have hua : u.active = true := by rw [hu]; exact ha
  have hdone : u.done = s.done := by rw [hu]
  have hpar : u.par = s.par := by rw [hu]
  have hwaited : u.waited = s.waited := by rw [hu]
  have hdrained : drained u = drained s := by rw [hu]; rfl
  have hfail (h : waitForDrain d u = failTransmission u) : ends .fail := by
    refine ⟨_, hstep, ?_⟩
    rw [h, failTransmission_frame, hu]
  have hok (h : waitForDrain d u = completeTransmission u) : ends .ok := by
    refine ⟨_, hstep, ?_⟩
    rw [h, completeTransmission_frame, hu]
  have hwait (h : waitForDrain d u = u) : waitsOn := by
    show step s = _
    rw [hstep, h, hu]
  refine ⟨?_, ?_, ?_, ?_, ?_, ?_, ?_, ?_⟩
  · rintro rfl
    exact hfail (waitForDrain_fails hua)
  · rintro rfl hd
    exact hwait (waitForDrain_in_loop (hdone.trans hd))
  · rintro rfl hd hbound hdr
    have htime : timedOut u = false := timedOut_unbounded (hpar ▸ hbound)
    exact hok (by rw [waitForDrain_after_loop hua (hdone.trans hd), htime, hdrained, hdr]; rfl)
  · rintro rfl hd hbound hdr
    have htime : timedOut u = false := timedOut_unbounded (hpar ▸ hbound)
    exact hwait (by rw [waitForDrain_after_loop hua (hdone.trans hd), htime, hdrained, hdr]; rfl)
  all_goals
    intro bound
    have hbounded (h : s.par.drainTimeout = some bound) :
        timedOut u = true ↔ bound < s.waited ∨ (drained s = false ∧ bound ≤ s.waited) := by
      rw [timedOut_bounded (s := u) (hpar ▸ h), hwaited, hdrained]
  · rintro rfl hd hbound hle hdr
    have htime : ¬ timedOut u = true := by
      rw [hbounded hbound, hdr]
      simp [hle]
    exact hok (by rw [waitForDrain_after_loop hua (hdone.trans hd), if_neg htime, hdrained, hdr]; rfl)
  · rintro rfl hd hbound hlt hdr
    have htime : ¬ timedOut u = true := by
      rw [hbounded hbound]
      omega
    exact hwait (by rw [waitForDrain_after_loop hua (hdone.trans hd), if_neg htime, hdrained, hdr]; rfl)
  · rintro hd hbound hwaited hdr
    exact hfail (waitForDrain_timeout d hua (hdone.trans hd) ((hbounded hbound).2 (.inr ⟨hdr, hwaited.ge⟩)))
  · rintro hd hbound hlt
    exact hfail (waitForDrain_timeout d hua (hdone.trans hd) ((hbounded hbound).2 (.inl hlt)))

/-! ### The boot (R113, R101) -/

section
variable {s t : State} {rest : List Event}

theorem step_acquireGpio {ok : Bool} (hb : s.boot = .off) (hi : s.inbox = .acquireGpio ok :: rest) :
    step s = .next { s with inbox := rest, boot := if ok then .gpio else .failed,
                            power := Config.powerAfterPinReset s.draws, draws := s.draws + 1 } := by
  rw [step_cons hi]
  simp [runEvent, acquireGpio, bootStep, hb]

theorem step_configureChannel {ok : Bool} (hb : s.boot = .gpio) (hi : s.inbox = .configureChannel ok :: rest) :
    step s = .next { s with inbox := rest, boot := if ok then .ready else .failed } := by
  rw [step_cons hi]
  simp [runEvent, bootStep, hb]

theorem exec_boot {i : Instr} (h : exec i s = .next t) : t.boot = s.boot := by
  obtain ⟨-, ⟨c, rfl⟩ | ⟨idx, v, r, -, -, rfl⟩ | ⟨r, g, b, -, -, rfl⟩ | ⟨w, f, -, -, rfl⟩⟩ := exec_next_cases h <;> rfl

theorem encStep_boot {cmd : CmdWord} (h : encStep cmd s = .next t) : t.boot = s.boot := by
  obtain rfl | ⟨i, -, hrun⟩ := encStep_cases h
  · rfl
  · exact exec_boot hrun

/-- No event but block reset brings a failed boot back: there is no HOST, and the boot's steps are over. -/
theorem runEvent_boot_failed {e : Event} (he : e ≠ .blockReset) (hb : s.boot = .failed) (h : runEvent e s = .next t) :
    t.boot = .failed := by
  have hhost (hr : s.hostRuns) : t.boot = .failed := by
    obtain ⟨-, -, hready⟩ := hr
    rw [hb] at hready
    cases hready
  cases e with
  | port cmd => exact (encStep_boot h).trans hb
  | issue | cfgTiming | setColor | pull | drain => exact hhost (hostAct_next h).1
  | acquireGpio ok =>
    have hoff := (acquireGpio_next h).1
    rw [hb] at hoff
    cases hoff
  | configureChannel ok =>
    have hgpio := (bootStep_cases h).1
    rw [hb] at hgpio
    cases hgpio
  | power on ok =>
    rw [setPower_cases h]
    exact hb
  | tick =>
    cases h
    rw [tick_frame]
    exact hb
  | blockReset => exact absurd rfl he

theorem step_boot_failed (hn : s.noReset) (hb : s.boot = .failed) (h : step s = .next t) : t.boot = .failed := by
  cases hi : s.inbox with
  | nil =>
    rw [step_nil hi] at h
    cases h
    rw [tick_frame]
    exact hb
  | cons e rest =>
    rw [step_cons hi] at h
    refine runEvent_boot_failed (s := { s with inbox := rest }) ?_ hb h
    rintro rfl
    simp [State.noReset, hi] at hn

end

/-- Settles O49: each boot step moves on from the phase before it, and HOST's steps wait for the last. -/
theorem bootMakesHostRun : Obligations.BootMakesHostRun := by
  unfold Obligations.BootMakesHostRun
  refine ⟨fun s rest hb hi => ?_, fun s rest hb hi => ⟨_, _, step_acquireGpio hb hi⟩,
    fun s rest hb hi => step_configureChannel hb hi, fun s t hb hn hstep => step_boot_failed hn hb hstep,
    fun s e rest hs hh hb hi he => ?_⟩
  · rw [run_succ_of_step 1 (step_acquireGpio hb hi), run_succ_of_step 0 (step_configureChannel rfl rfl)]
    exact ⟨_, _, rfl⟩
  · obtain ⟨act, hact⟩ := he.runEvent_eq { s with inbox := rest }
    rw [step_cons hi, hact]
    simp [hostAct, hs, hh, hb]

/-! ### `CFG_TIMING` (R61) -/

section
variable {s : State} {rest : List Event}

theorem CfgReg.index_le (r : CfgReg) : r.index.toNat ≤ 5 := by cases r <;> decide

theorem CfgReg.wellFormed_cfgw (r : CfgReg) (v : CfgWord) : (Instr.cfgw r.index v).wellFormed = true :=
  decide_eq_true r.index_le

/-- HOST issues a `CFGW` of a register while the configuration is unlocked. -/
theorem step_issue_cfgw {r : CfgReg} {v : CfgWord} (hr : s.hostRuns) (hl : s.cfgLock = false)
    (hi : s.inbox = .issue (encode (.cfgw r.index v)) :: rest) :
    step s = .next (respond [] false { s with inbox := rest, cfg := s.cfg.set r v }) := by
  have hexec := exec_cfgw_unlocked (s := { s with inbox := rest }) v hr.1 (CfgReg.ofIndex_index r) hl
  rw [step_issue hr hi, hostIssue_run (decode_encode (CfgReg.wellFormed_cfgw r v)) rfl, hostRun_of_exec hexec,
    hostAbsorb_cfgw]

/-- HOST issues a `CFGW` of a register once the configuration is locked. -/
theorem step_issue_cfgw_locked {r : CfgReg} {v : CfgWord} (hr : s.hostRuns) (hl : s.cfgLock = true)
    (hi : s.inbox = .issue (encode (.cfgw r.index v)) :: rest) :
    step s = .next (raiseFault .cfgLocked (encode (.cfgw r.index v)) { s with inbox := rest }) := by
  have hexec := exec_cfgw_lockFault (s := { s with inbox := rest }) v hr.1 (CfgReg.index_le r) hl
  rw [step_issue hr hi, hostIssue_run (decode_encode (CfgReg.wellFormed_cfgw r v)) rfl, hostRun_of_fault hexec]

/-- HOST's next command finds a faulted ENC stuck. -/
theorem step_issue_stuck {cmd : CmdWord} {c : EncFault} (hs : s.fault = some c) (hi : s.inbox = .issue cmd :: rest) :
    step s = .fault .encStuck := by
  rw [step_cons hi]
  exact hostAct_stuck _ hs

/-- A run stops at a step that faults. -/
theorem run_succ_of_fault (n : Nat) {f : Fault} (h : step s = .fault f) :
    Host.Core.run Sys2Proof.core (n + 1) s = .fault f := by
  have hcore : Sys2Proof.core.step s = .fault f := h
  simp only [Host.Core.run, hcore]

end

/-- Settles O50: seven steps while unlocked; locked, the first command faults and the next finds ENC stuck. -/
theorem cfgTimingWritesSixRegisters : Obligations.CfgTimingWritesSixRegisters := by
  unfold Obligations.CfgTimingWritesSixRegisters
  intro s hz t0h t0l t1h t1l rst rest hr hi
  refine ⟨fun hl => ?_, fun hl => ?_⟩
  · refine Eq.trans (run_succ_of_step 6 (step_cfgTiming hr hi)) ?_
    refine Eq.trans (run_succ_of_step 5 (step_issue_cfgw (r := .tickHz) hr hl rfl)) ?_
    refine Eq.trans (run_succ_of_step 4 (step_issue_cfgw (r := .t0hNs) hr hl rfl)) ?_
    refine Eq.trans (run_succ_of_step 3 (step_issue_cfgw (r := .t0lNs) hr hl rfl)) ?_
    refine Eq.trans (run_succ_of_step 2 (step_issue_cfgw (r := .t1hNs) hr hl rfl)) ?_
    refine Eq.trans (run_succ_of_step 1 (step_issue_cfgw (r := .t1lNs) hr hl rfl)) ?_
    exact run_succ_of_step 0 (step_issue_cfgw (r := .rstNs) hr hl rfl)
  · obtain ⟨cmd, left, hleft⟩ : ∃ cmd left, (cfgTimingWords hz t0h t0l t1h t1l rst).map Event.issue ++ rest =
        .issue (encode (.cfgw CfgReg.tickHz.index hz)) :: .issue cmd :: left := ⟨_, _, rfl⟩
    have hexpand := step_cfgTiming hr hi
    rw [hleft] at hexpand
    have hfault := step_issue_cfgw_locked (r := .tickHz) (v := hz) (rest := .issue cmd :: left)
      (s := { s with inbox := .issue (encode (.cfgw CfgReg.tickHz.index hz)) :: .issue cmd :: left }) hr hl rfl
    refine ⟨⟨_, Eq.trans (run_succ_of_step 1 hexpand) (run_succ_of_step 0 hfault)⟩, ?_⟩
    refine Eq.trans (run_succ_of_step 2 hexpand) (Eq.trans (run_succ_of_step 1 hfault) (run_succ_of_fault 0 ?_))
    exact step_issue_stuck (cmd := cmd) (rest := left) rfl rfl

end Sys2Proof.Machine

namespace Sys2Proof.Machine

/-! ### What steps do to `RING` (R85, R89, R92) -/

/-- `RING` is as it was, or the symbols of an OK response stand behind the last. -/
def State.RingGrows (s t : State) : Prop :=
  t.ring = s.ring ∨ ∃ r, t.rsp = some r ∧ r.status = none ∧ t.ring = s.ring ++ r.syms

/-- The tick in which PG takes the head of `RING` and shows its first level. -/
def State.HeadBegins (s t : State) : Prop :=
  ∃ x, s.ring = x :: t.ring ∧ s.en = true ∧ t.en = true ∧ t.line = x.levelAt 0 ∧ (t.play = .playing x 1 ∨ x.total = 1)

section
variable {s t : State}

theorem exec_ring {i : Instr} (h : exec i s = .next t) : t.ring = s.ring := by
  obtain ⟨-, ⟨c, rfl⟩ | ⟨idx, v, r, -, -, rfl⟩ | ⟨r, g, b, -, -, rfl⟩ | ⟨w, f, -, -, rfl⟩⟩ := exec_next_cases h <;> rfl

theorem encStep_ring {cmd : CmdWord} (h : encStep cmd s = .next t) : t.ring = s.ring := by
  obtain rfl | ⟨i, -, hrun⟩ := encStep_cases h
  · rfl
  · exact exec_ring hrun

theorem hostRun_ringGrows {i : Instr} (h : hostRun i s = .next t) : s.RingGrows t := by
  obtain ⟨-, ⟨c, rfl⟩ | ⟨idx, v, r, -, -, rfl⟩ | ⟨r, g, b, -, -, rfl⟩ | ⟨w, f, rfl, -, rfl⟩⟩ := hostRun_cases h
  · exact .inl rfl
  · exact .inl rfl
  · exact .inl rfl
  · rw [hostAbsorb_pull]
    exact .inr ⟨_, rfl, rfl, rfl⟩

theorem hostIssue_ringGrows {cmd : CmdWord} (h : hostIssue cmd s = .next t) : s.RingGrows t := by
  obtain rfl | ⟨b, rfl⟩ | ⟨i, -, -, hrun⟩ := hostIssue_cases h
  · exact .inl rfl
  · exact .inl rfl
  · exact hostRun_ringGrows hrun

theorem startTransmission_ringGrows {r g b : Byte} {sf : Bool} (h : startTransmission r g b sf s = .next t) :
    s.RingGrows t := by
  obtain rfl | ⟨-, -, rfl⟩ | ⟨-, -, hrun⟩ := startTransmission_cases h
  · exact .inl rfl
  · exact .inl (disable_ring _)
  · exact hostRun_ringGrows (s := { s with active := true, en := true, waited := 0, ret := none }) hrun

theorem pullRound_ringGrows {f : CountWord} (h : pullRound f s = .next t) : s.RingGrows t := by
  obtain rfl | ⟨-, -, hissue⟩ := pullRound_cases h
  · exact .inl rfl
  · exact hostIssue_ringGrows hissue

theorem waitForDrain_ring (d : Bool) (s : State) : (waitForDrain d s).ring = s.ring := by
  obtain e | ⟨-, -, e⟩ | ⟨-, -, -, -, -, e⟩ := waitForDrain_cases d s <;> rw [e]
  · exact disable_ring s
  · exact disable_ring s

/-- The tick in which PG is free to begin the head takes it, or finds `RING` empty. -/
theorem startTick_takes_head (hen : s.en = true) (hpos : ∀ x ∈ s.ring, 0 < x.total) :
    (startTick s).ring = s.ring ∨ s.HeadBegins (startTick s) := by
  cases hring : s.ring with
  | nil =>
    left
    simp [startTick, hring, takeHead]
  | cons x rest =>
    right
    have hx : 0 < x.total := hpos x (by simp [hring])
    rw [startTick_cons hring hx]
    refine ⟨x, by rw [playTick_ring, hring], hen, (playTick_en x 0 _).trans hen, playTick_line x 0 _, ?_⟩
    rcases Nat.lt_or_ge 1 x.total with h1 | h1
    · exact .inl (playTick_play h1)
    · exact .inr (by omega)

theorem gapTick_takes_head (left : Nat) (hen : s.en = true) (hpos : ∀ x ∈ s.ring, 0 < x.total) :
    (gapTick left s).ring = s.ring ∨ s.HeadBegins (gapTick left s) := by
  cases left with
  | zero => exact startTick_takes_head hen hpos
  | succ n => exact .inl rfl

theorem pgTick_takes_head (hpos : ∀ x ∈ s.ring, 0 < x.total) : (pgTick s).ring = s.ring ∨ s.HeadBegins (pgTick s) := by
  cases hen : s.en with
  | false => exact .inl (by rw [pgTick_disabled hen])
  | true =>
    cases hp : s.play with
    | idle =>
      rw [pgTick_idle hen hp]
      exact startTick_takes_head hen hpos
    | playing x e =>
      rw [pgTick_playing hen hp]
      exact .inl (playTick_ring x e s)
    | starved gapped =>
      by_cases hr : s.ring = []
      · exact .inl (by rw [pgTick_starved_nil hen hp hr])
      · rw [pgTick_starved hen hp hr]
        exact gapTick_takes_head (s := { s with draws := s.draws + 1 }) _ hen hpos
    | gap left =>
      rw [pgTick_gap hen hp]
      exact gapTick_takes_head left hen hpos

theorem tick_takes_head (hpos : ∀ x ∈ s.ring, 0 < x.total) : (tick s).ring = s.ring ∨ s.HeadBegins (tick s) := by
  obtain ⟨n, ht⟩ := tick_eq_pgTick s
  rw [ht]
  exact pgTick_takes_head (s := { s with waited := n }) hpos

theorem runEvent_ring {e : Event} (he : e ≠ .blockReset) (hpos : ∀ x ∈ s.ring, 0 < x.total) (h : runEvent e s = .next t) :
    s.RingGrows t ∨ s.HeadBegins t := by
  cases e with
  | port cmd => exact .inl (.inl (encStep_ring h))
  | issue cmd => exact .inl (hostIssue_ringGrows (hostAct_next h).2)
  | cfgTiming hz t0h t0l t1h t1l rst =>
    cases (hostAct_next h).2
    exact .inl (.inl rfl)
  | setColor r g b submitFails => exact .inl (startTransmission_ringGrows (hostAct_next h).2)
  | pull free => exact .inl (pullRound_ringGrows (hostAct_next h).2)
  | drain drainFails =>
    cases (hostAct_next h).2
    exact .inl (.inl (waitForDrain_ring drainFails s))
  | acquireGpio ok =>
    rw [(acquireGpio_next h).2]
    exact .inl (.inl rfl)
  | configureChannel ok =>
    rw [(bootStep_cases h).2]
    exact .inl (.inl rfl)
  | power on ok =>
    rw [setPower_cases h]
    exact .inl (.inl rfl)
  | tick =>
    cases h
    exact (tick_takes_head hpos).imp_left .inl
  | blockReset => exact absurd rfl he

theorem step_ring (hn : s.noReset) (hpos : ∀ x ∈ s.ring, 0 < x.total) (h : step s = .next t) :
    s.RingGrows t ∨ s.HeadBegins t := by
  cases hi : s.inbox with
  | nil =>
    rw [step_nil hi] at h
    cases h
    exact (tick_takes_head hpos).imp_left .inl
  | cons e rest =>
    rw [step_cons hi] at h
    refine runEvent_ring (s := { s with inbox := rest }) ?_ hpos h
    rintro rfl
    simp [State.noReset, hi] at hn

end

/-- Settles O33: HOST's steps only append to `RING`, and a tick takes nothing but the head it begins. -/
theorem noSymbolIsDropped : Obligations.NoSymbolIsDropped := by
  unfold Obligations.NoSymbolIsDropped
  exact fun _ _ hn hpos h => or_assoc.1 (step_ring hn hpos h)

/-! ### The frame, piece by piece (R81)

After `n` offers of at least 8 slots a transmission has received `8 * n` symbols of the frame, or all 25. -/

/-- How many offers there are once `free` slots have been offered after `n` of them. -/
def offersAfter (n free : Nat) : Nat := if 8 ≤ free then n + 1 else n

/-- What a call that offers `free` slots after `n` offers adds: eight symbols of the frame, or what is left of it. -/
def framePiece (c : Cfg) (p : List Byte) (n free : Nat) : List Symbol :=
  if 8 ≤ free then ((frame c p).drop (8 * n)).take 8 else []

theorem frame_length (c : Cfg) (g r b : Byte) : (frame c [g, r, b]).length = 25 := rfl

theorem offers_cons (f : CountWord) (frees : List CountWord) :
    offers (f :: frees) = offersAfter 0 f.toNat + offers frees := by
  unfold offers offersAfter
  rw [List.countP_cons, Nat.add_comm]
  simp

theorem offersAfter_eq_add (n free : Nat) : offersAfter n free = n + offersAfter 0 free := by
  unfold offersAfter
  split <;> omega

section
variable {c : Cfg} {n free : Nat} {p : Payload}

theorem take_append_framePiece (c : Cfg) (bytes : List Byte) (n free : Nat) :
    (frame c bytes).take (8 * n) ++ framePiece c bytes n free = (frame c bytes).take (8 * offersAfter n free) := by
  unfold framePiece offersAfter
  split
  · rw [← List.take_add, Nat.mul_succ]
  · exact List.append_nil _

theorem framePiece_length (c : Cfg) (p : Payload) (n free : Nat) :
    (framePiece c p.bytes n free).length = if 8 ≤ free then min 8 (25 - 8 * n) else 0 := by
  unfold framePiece
  split
  · rw [List.length_take, List.length_drop, Payload.bytes, frame_length]
  · rfl

/-- The cursor moves by the length of the piece (R18). -/
theorem cursor_add_framePiece_length (c : Cfg) (p : Payload) (hn : n < 4) (free : Nat) :
    8 * n + (framePiece c p.bytes n free).length = min (8 * offersAfter n free) 25 := by
  rw [framePiece_length]
  unfold offersAfter
  split <;> omega

/-- After the fourth offer nothing of the frame is left. -/
theorem framePiece_over (c : Cfg) (p : Payload) (hn : 4 ≤ n) (free : Nat) : framePiece c p.bytes n free = [] := by
  rw [← List.length_eq_zero_iff, framePiece_length]
  split <;> omega

/-- The piece of each offer but the fourth is a byte's symbols. -/
theorem framePiece_byte {byte : Byte} (hf : 8 ≤ free) (hn : n < 3) (hbyte : p.bytes[n]? = some byte) :
    framePiece c p.bytes n free = byteSymbols c byte := by
  rw [framePiece, if_pos hf]
  interval_cases n <;> cases hbyte <;> rfl

theorem framePiece_reset (c : Cfg) (p : Payload) (hf : 8 ≤ free) : framePiece c p.bytes 3 free = [rom c .reset] := by
  rw [framePiece, if_pos hf]
  rfl

/-- What a `PULL` hands out at the cursor of `n` offers is the frame's next piece, and it ends with the fourth. -/
theorem pull_at_offers (c : Cfg) (hp : p.written = true) (hn : n < 4) (free : Nat) :
    pullSlots c p (8 * n) (pullArm (8 * n) free) = framePiece c p.bytes n free ∧
      doneOut (pullArm (8 * n) free) false = decide (4 ≤ offersAfter n free) := by
  have hpass : pullCheck free p (8 * n) free false = none := pullCheck_pass hp (by omega) (by omega) le_rfl
  obtain ⟨hf, ha, hslots⟩ | ⟨hf, hlt, ha, byte, hbyte, hslots⟩ | ⟨hf, hend, ha, hslots⟩ := pull_arms c hpass <;>
    rw [hslots, ha]
  · rw [framePiece, offersAfter, if_neg (not_le.2 hf), if_neg (not_le.2 hf)]
    exact ⟨rfl, by simp [doneOut, hn]⟩
  · rw [memReadP_written hp, Nat.mul_div_cancel_left n (by decide)] at hbyte
    rw [framePiece_byte hf (by omega) hbyte, offersAfter, if_pos hf]
    exact ⟨rfl, by simp [doneOut]; omega⟩
  · obtain rfl : n = 3 := by omega
    rw [framePiece_reset c p hf, offersAfter, if_pos hf]
    exact ⟨rfl, rfl⟩

/-- The cursor of `n` offers as the operand of a `PULL`. -/
theorem cursorWord_toNat (hn : n < 4) : (BitVec.ofNat 16 (8 * n)).toNat = 8 * n := by
  rw [BitVec.toNat_ofNat]
  omega

theorem pullCheck_at_offers {cap : Nat} (hp : p.written = true) (hn : n < 4) (hf : free ≤ cap) :
    pullCheck cap p (BitVec.ofNat 16 (8 * n)).toNat free false = none := by
  rw [cursorWord_toNat hn]
  exact pullCheck_pass hp (by omega) (by omega) hf

/-- ENC's answer to the `PULL` of a transmission after `n` offers. -/
theorem exec_pull_at_offers {s : State} {f : CountWord} (hs : s.fault = none) (hp : s.payload.written = true) (hn : n < 4)
    (hf : f.toNat ≤ s.par.cap) : exec (.pull (BitVec.ofNat 16 (8 * n)) f false) s =
      .next (respond (framePiece s.cfg s.payload.bytes n f.toNat) (decide (4 ≤ offersAfter n f.toNat)) s) := by
  obtain ⟨hslots, hdone⟩ := pull_at_offers s.cfg hp hn f.toNat
  rw [exec_pull_pass hs (pullCheck_at_offers hp hn hf), cursorWord_toNat hn, hslots, hdone]

end

/-! ### HOST's loop against ENC alone -/

/-- The thread of a transmission after `n` offers, with any response on ENC's port. -/
def Thread.afterOffers (s : State) (n : Nat) (rsp : Option Response) : Thread :=
  { w := min (8 * n) 25, done := decide (4 ≤ n), sent := (frame s.cfg s.payload.bytes).take (8 * n),
    enc := { s with rsp := rsp } }

section
variable {s : State}

/-- Nothing of the frame is left to take after the fourth offer. -/
theorem take_frame_of_four_le (c : Cfg) (p : Payload) {n : Nat} (hn : 4 ≤ n) :
    (frame c p.bytes).take (8 * n) = frame c p.bytes :=
  List.take_of_length_le (by rw [Payload.bytes, frame_length]; omega)

/-- A call after the fourth offer changes nothing, and counts for nothing. -/
theorem Thread.afterOffers_over (s : State) {n m : Nat} (hn : 4 ≤ n) (hm : 4 ≤ m) (rsp : Option Response) :
    Thread.afterOffers s n rsp = Thread.afterOffers s m rsp := by
  have hw : min (8 * n) 25 = min (8 * m) 25 := by omega
  simp only [afterOffers, hw, hn, hm, take_frame_of_four_le]

theorem Thread.pull_afterOffers (hs : s.fault = none) (hp : s.payload.written = true) {f : CountWord}
    (hf : f.toNat ≤ s.par.cap) (n : Nat) (rsp : Option Response) :
    ∃ rsp', (Thread.afterOffers s n rsp).pull f = some (Thread.afterOffers s (offersAfter n f.toNat) rsp') := by
  rcases Nat.lt_or_ge n 4 with hn | hn
  · have hdone : decide (4 ≤ n) = false := decide_eq_false (by omega)
    have hw : min (8 * n) 25 = 8 * n := by omega
    have hexec := exec_pull_at_offers (s := { s with rsp := rsp }) hs hp hn hf
    refine ⟨some (Response.ok (framePiece s.cfg s.payload.bytes n f.toNat) (decide (4 ≤ offersAfter n f.toNat))), ?_⟩
    simp only [Thread.pull, afterOffers, hdone, hw, hexec, respond_rsp, ok_status, ok_count, ok_doneOut, ok_syms,
      take_append_framePiece, cursor_add_framePiece_length s.cfg s.payload hn]
    rfl
  · have hle : 4 ≤ offersAfter n f.toNat := by
      rw [offersAfter_eq_add]
      omega
    refine ⟨rsp, ?_⟩
    rw [Thread.afterOffers_over s hle hn]
    simp [Thread.pull, afterOffers, hn]

theorem Thread.run_afterOffers (hs : s.fault = none) (hp : s.payload.written = true) (frees : List CountWord)
    (hf : ∀ f ∈ frees, f.toNat ≤ s.par.cap) (n : Nat) (rsp : Option Response) :
    ∃ rsp', (Thread.afterOffers s n rsp).run frees = some (Thread.afterOffers s (n + offers frees) rsp') := by
  induction frees generalizing n rsp with
  | nil => exact ⟨rsp, rfl⟩
  | cons f frees ih =>
    obtain ⟨hf, hfs⟩ := List.forall_mem_cons.1 hf
    obtain ⟨rsp', hpull⟩ := Thread.pull_afterOffers hs hp hf n rsp
    obtain ⟨rsp'', hrun⟩ := ih hfs (offersAfter n f.toNat) rsp'
    refine ⟨rsp'', ?_⟩
    rw [Thread.run, hpull, offers_cons, ← Nat.add_assoc, ← offersAfter_eq_add]
    exact hrun

end

/-- What has been received is counted by `sentAfter`'s cut. -/
theorem take_frame_min (c : Cfg) (p : Payload) (n : Nat) :
    (frame c p.bytes).take (min (8 * n) 25) = (frame c p.bytes).take (8 * n) := by
  rw [List.take_eq_take_min (i := 8 * n), Payload.bytes, frame_length]

/-- Settles O26: each call moves the thread from one offer count to the next. -/
theorem fourOffersSendTheFrame : Obligations.FourOffersSendTheFrame := by
  unfold Obligations.FourOffersSendTheFrame
  intro s frees hs hp hf n sent
  obtain ⟨rsp, hrun⟩ := Thread.run_afterOffers hs hp frees hf 0 s.rsp
  rw [Nat.zero_add] at hrun
  have hsent : sent = min (8 * n) 25 := by
    show (if 4 ≤ n then 25 else 8 * n) = _
    split <;> omega
  have htake : (Thread.afterOffers s n rsp).sent =
      (frame s.cfg [s.payload.green, s.payload.red, s.payload.blue]).take sent := by
    rw [hsent]
    exact (take_frame_min s.cfg s.payload n).symm
  refine ⟨_, hrun, hsent.symm, rfl, htake, ?_, rfl⟩
  rw [htake, List.length_take, frame_length, hsent]
  omega

end Sys2Proof.Machine

namespace Sys2Proof.Machine

/-! ### Runs from one state to the next, with what the line shows

`Leads es s t bits`: the events `es`, first in line, bring the machine from `s` to `t`, and the line shows `bits`. -/

def Leads (es : List Event) (s t : State) (bits : List Bool) : Prop :=
  ∀ rest, Host.Core.run Sys2Proof.core es.length { s with inbox := es ++ rest } = .next { t with inbox := rest } ∧
    lineDuring es.length { s with inbox := es ++ rest } = bits

section
variable {s t u : State} {es fs : List Event} {bits cits : List Bool}

/-- A run that goes on has a first step that does. -/
theorem run_succ_next {n : Nat} (h : Host.Core.run Sys2Proof.core (n + 1) s = .next t) :
    ∃ u, step s = .next u ∧ Host.Core.run Sys2Proof.core n u = .next t := by
  cases hstep : step s with
  | next u =>
    rw [run_succ_of_step n hstep] at h
    exact ⟨u, rfl, h⟩
  | fault f =>
    rw [run_succ_of_fault n hstep] at h
    cases h
  | refused r =>
    have hcore : Sys2Proof.core.step s = .refused r := hstep
    simp only [Host.Core.run, hcore] at h
    cases h

theorem lineDuring_succ_of_step (n : Nat) (h : step s = .next t) : lineDuring (n + 1) s =
    (if s.inbox = [] ∨ s.inbox.head? = some .tick then [t.line] else []) ++ lineDuring n t := by
  simp only [lineDuring, h]

/-- A run in two parts. -/
theorem run_add {m : Nat} (n : Nat) (h : Host.Core.run Sys2Proof.core m s = .next t) :
    Host.Core.run Sys2Proof.core (m + n) s = Host.Core.run Sys2Proof.core n t ∧
      lineDuring (m + n) s = lineDuring m s ++ lineDuring n t := by
  induction m generalizing s with
  | zero =>
    cases h
    rw [Nat.zero_add]
    exact ⟨rfl, rfl⟩
  | succ m ih =>
    obtain ⟨u, hstep, hrun⟩ := run_succ_next h
    obtain ⟨hrun', hline⟩ := ih hrun
    rw [Nat.succ_add, run_succ_of_step _ hstep, lineDuring_succ_of_step _ hstep, lineDuring_succ_of_step _ hstep, hline,
      List.append_assoc]
    exact ⟨hrun', rfl⟩

theorem Leads.nil (s : State) : Leads [] s s [] := fun _ => ⟨rfl, rfl⟩

theorem Leads.append (h : Leads es s t bits) (h' : Leads fs t u cits) : Leads (es ++ fs) s u (bits ++ cits) := by
  intro rest
  obtain ⟨hrun, hline⟩ := h (fs ++ rest)
  obtain ⟨hrun', hline'⟩ := h' rest
  obtain ⟨hboth, hlines⟩ := run_add fs.length hrun
  rw [List.append_assoc, List.length_append, hboth, hlines, hline, hline']
  exact ⟨hrun', rfl⟩

/-- An event that is no tick shows nothing. -/
theorem Leads.event {e : Event} (he : e ≠ .tick)
    (h : ∀ rest, runEvent e { s with inbox := rest } = .next { t with inbox := rest }) : Leads [e] s t [] := by
  intro rest
  have hstep : step { s with inbox := e :: rest } = .next { t with inbox := rest } :=
    (step_cons (s := { s with inbox := e :: rest }) rfl).trans (h rest)
  refine ⟨run_succ_of_step 0 hstep, ?_⟩
  rw [List.length_singleton, List.singleton_append, lineDuring_succ_of_step 0 hstep, if_neg (by simp [he])]
  rfl

/-- The events to come are nothing to PG. -/
theorem playTick_setInbox (x : Symbol) (e : Nat) (s : State) (rest : List Event) :
    playTick x e { s with inbox := rest } = { playTick x e s with inbox := rest } := by
  unfold playTick
  split <;> rfl

theorem startTick_some {x : Symbol} {tail : List Symbol} (h : takeHead s.ring = some (x, tail)) :
    startTick s = playTick x 0 { s with ring := tail } := by
  simp only [startTick, h]

theorem startTick_none (h : takeHead s.ring = none) : startTick s = { s with line := false, ring := [] } := by
  simp only [startTick, h]

theorem startTick_setInbox (s : State) (rest : List Event) :
    startTick { s with inbox := rest } = { startTick s with inbox := rest } := by
  cases h : takeHead s.ring with
  | none => rw [startTick_none h, startTick_none (s := { s with inbox := rest }) h]
  | some taken =>
    obtain ⟨x, tail⟩ := taken
    rw [startTick_some h, startTick_some (s := { s with inbox := rest }) h]
    exact playTick_setInbox x 0 { s with ring := tail } rest

theorem gapTick_setInbox (left : Nat) (s : State) (rest : List Event) :
    gapTick left { s with inbox := rest } = { gapTick left s with inbox := rest } := by
  cases left with
  | zero => exact startTick_setInbox s rest
  | succ n => rfl

theorem Play.eq_cases (p : Play) :
    p = .idle ∨ (∃ x e, p = .playing x e) ∨ (∃ gapped, p = .starved gapped) ∨ ∃ left, p = .gap left := by
  cases p <;> simp

theorem pgTick_setInbox (s : State) (rest : List Event) :
    pgTick { s with inbox := rest } = { pgTick s with inbox := rest } := by
  rcases Bool.eq_false_or_eq_true s.en with hen | hen
  · obtain hp | ⟨x, e, hp⟩ | ⟨gapped, hp⟩ | ⟨left, hp⟩ := s.play.eq_cases
    · rw [pgTick_idle hen hp, pgTick_idle (s := { s with inbox := rest }) hen hp, startTick_setInbox]
    · rw [pgTick_playing hen hp, pgTick_playing (s := { s with inbox := rest }) hen hp, playTick_setInbox]
    · by_cases hr : s.ring = []
      · rw [pgTick_starved_nil hen hp hr, pgTick_starved_nil (s := { s with inbox := rest }) hen hp hr]
      · rw [pgTick_starved hen hp hr, pgTick_starved (s := { s with inbox := rest }) hen hp hr]
        exact gapTick_setInbox _ { s with draws := s.draws + 1 } rest
    · rw [pgTick_gap hen hp, pgTick_gap (s := { s with inbox := rest }) hen hp, gapTick_setInbox]
  · rw [pgTick_disabled hen, pgTick_disabled (s := { s with inbox := rest }) hen]

theorem tick_setInbox (s : State) (rest : List Event) : tick { s with inbox := rest } = { tick s with inbox := rest } := by
  unfold tick
  show pgTick (if s.active && s.done && !drained s then _ else _) = _
  split
  · exact pgTick_setInbox { s with waited := s.waited + 1 } rest
  · exact pgTick_setInbox s rest

theorem Leads.tick (s : State) : Leads [.tick] s (tick s) [(tick s).line] := by
  intro rest
  have hstep : step { s with inbox := .tick :: rest } = .next { Machine.tick s with inbox := rest } :=
    (step_cons (s := { s with inbox := .tick :: rest }) rfl).trans (congrArg _ (tick_setInbox s rest))
  refine ⟨run_succ_of_step 0 hstep, ?_⟩
  rw [List.length_singleton, List.singleton_append, lineDuring_succ_of_step 0 hstep, if_pos (.inr rfl)]
  rfl

/-- Ticks in a row. -/
theorem Leads.ticks (n : Nat) (s : State) : Leads (List.replicate n .tick) s (ticksFrom n s) (lineTrace n s) := by
  induction n generalizing s with
  | zero => exact .nil s
  | succ n ih => exact (Leads.tick s).append (ih (Machine.tick s))

/-- The run of the whole machine with these events first in line. -/
theorem Leads.run (h : Leads es s t bits) {rest : List Event} (hi : s.inbox = es ++ rest) :
    Host.Core.run Sys2Proof.core es.length s = .next { t with inbox := rest } ∧ lineDuring es.length s = bits := by
  have hrun := h rest
  rw [← hi] at hrun
  exact hrun

theorem run_inv {n : Nat} (h : s.Inv) (hrun : Host.Core.run Sys2Proof.core n s = .next t) : t.Inv := by
  induction n generalizing s with
  | zero =>
    cases hrun
    exact h
  | succ n ih =>
    obtain ⟨u, hstep, hrun⟩ := run_succ_next hrun
    exact ih (step_inv h hstep) hrun

/-- The invariant holds of every state of a run; the events to come are no part of it. -/
theorem Leads.inv (h : Leads es s t bits) (hs : s.Inv) : t.Inv := by
  have hend := run_inv (s := { s with inbox := es ++ [] }) { hs with } (h []).1
  exact { hend with }

end

/-! ### A transmission, by how many offers it has had -/

/-- HOST is in a transmission of the frame of the payload `p` under the configuration `c` and the parameters `par`, and has
made `n` offers (R91, R18, R19). -/
structure State.Sends (s : State) (c : Cfg) (p : Payload) (par : Params) (n : Nat) : Prop where
  runs : s.hostRuns
  active : s.active = true
  cursorSet : s.cursorSet = true
  written : p.written = true
  cfg_eq : s.cfg = c
  payload_eq : s.payload = p
  par_eq : s.par = par
  w_eq : s.w = min (8 * n) 25
  done_eq : s.done = decide (4 ≤ n)

/-- The state in which a round leaves a transmission: `n` offers made, and `ring` in `RING`. -/
def State.queued (s : State) (n : Nat) (ring : List Symbol) (rsp : Option Response) : State :=
  { s with rsp := rsp, ring := ring, w := min (8 * n) 25, done := decide (4 ≤ n) }

/-- The state in which `SET_COLOR`'s start leaves the machine (R91). -/
def State.started (s : State) (r g b : Byte) : State :=
  { s with active := true, en := true, cfgLock := true, payload := Payload.load r g b,
           rsp := some (Response.ok [] false), w := 0, done := false, cursorSet := true, waited := 0, ret := none }

section
variable {s t : State} {c : Cfg} {p : Payload} {par : Params} {n : Nat}

theorem State.Sends.queued (h : s.Sends c p par n) (m : Nat) (ring : List Symbol) (rsp : Option Response) :
    (s.queued m ring rsp).Sends c p par m :=
  { h with
    w_eq := rfl
    done_eq := rfl }

/-- Time passes without moving HOST's cursor. -/
theorem State.Sends.tick (h : s.Sends c p par n) : (tick s).Sends c p par n := by
  rw [tick_frame]
  exact { h with }

theorem State.Sends.ticks (h : s.Sends c p par n) (m : Nat) : (ticksFrom m s).Sends c p par n := by
  induction m generalizing s with
  | zero => exact h
  | succ m ih => exact ih h.tick

theorem ticksFrom_en (m : Nat) (s : State) : (ticksFrom m s).en = s.en := by
  induction m generalizing s with
  | zero => rfl
  | succ m ih => exact (ih (tick s)).trans (tick_en s)

theorem startTransmission_started {r g b : Byte} (hr : s.hostRuns) (ha : s.active = false) (hv : s.cfg.valid = true) :
    startTransmission r g b false s = .next (s.started r g b) := by
  rw [startTransmission_submitted ha]
  exact hostRun_loadc_valid r g b hr.1 hv

theorem State.started_sends (r g b : Byte) (hr : s.hostRuns) :
    (s.started r g b).Sends s.cfg (Payload.load r g b) s.par 0 where
  runs := hr
  active := rfl
  cursorSet := rfl
  written := rfl
  cfg_eq := rfl
  payload_eq := rfl
  par_eq := rfl
  w_eq := rfl
  done_eq := rfl

theorem leads_setColor {r g b : Byte} (hr : s.hostRuns) (ha : s.active = false) (hv : s.cfg.valid = true) :
    Leads [.setColor r g b false] s (s.started r g b) [] := by
  refine .event nofun fun rest => ?_
  exact (hostAct_runs (s := { s with inbox := rest }) hr).trans
    (startTransmission_started (s := { s with inbox := rest }) hr ha hv)

/-- A round of the loop appends the frame's next piece and threads the cursor. -/
theorem pullRound_sends {f : CountWord} (h : s.Sends c p par n) (hn : n < 4) (hcap : f.toNat ≤ par.cap)
    (hfree : f.toNat ≤ par.ringDepth - s.ring.length) : pullRound f s = .next
      (s.queued (offersAfter n f.toNat) (s.ring ++ framePiece c p.bytes n f.toNat)
        (some (Response.ok (framePiece c p.bytes n f.toNat) (decide (4 ≤ offersAfter n f.toNat))))) := by
  obtain ⟨⟨hs, -, -⟩, hact, hcursor, hw, rfl, rfl, rfl, hweq, hdone⟩ := h
  have hdone : s.done = false := hdone.trans (decide_eq_false (by omega))
  have hweq : s.w = 8 * n := by omega
  rw [pullRound_in_loop hact hdone, hweq, hostIssue_run (decode_encode rfl),
    hostRun_of_exec (exec_pull_at_offers hs hw hn hcap), hostAbsorb_pull, if_pos hcursor, if_pos hcursor, hweq,
    cursor_add_framePiece_length s.cfg s.payload hn]
  · rfl
  · exact hostBreach_pull_dutiful (fun _ => ⟨by rw [cursorWord_toNat hn, hweq], hdone.symm⟩) hfree

/-- Once the loop is over a round does nothing. -/
theorem pullRound_sends_over {f : CountWord} (h : s.Sends c p par n) (hn : 4 ≤ n) : pullRound f s = .next s := by
  simp [pullRound, h.done_eq, hn]

/-- Every round that overstates nothing moves the transmission from one offer count to the next. -/
theorem State.Sends.leads_round {f : CountWord} (h : s.Sends c p par n) (hcap : f.toNat ≤ par.cap)
    (hfree : f.toNat ≤ par.ringDepth - s.ring.length) :
    ∃ rsp, Leads [.pull f] s (s.queued (offersAfter n f.toNat) (s.ring ++ framePiece c p.bytes n f.toNat) rsp) [] := by
  rcases Nat.lt_or_ge n 4 with hn | hn
  · refine ⟨some (Response.ok (framePiece c p.bytes n f.toNat) (decide (4 ≤ offersAfter n f.toNat))),
      .event nofun fun rest => ?_⟩
    exact (hostAct_runs (s := { s with inbox := rest }) h.runs).trans
      (pullRound_sends (s := { s with inbox := rest }) { h with } hn hcap hfree)
  · have hle : 4 ≤ offersAfter n f.toNat := by
      rw [offersAfter_eq_add]
      omega
    have hsame : s.queued (offersAfter n f.toNat) (s.ring ++ framePiece c p.bytes n f.toNat) s.rsp = s := by
      have hw : min (8 * offersAfter n f.toNat) 25 = s.w := by rw [h.w_eq]; omega
      have hd : decide (4 ≤ offersAfter n f.toNat) = s.done := by rw [h.done_eq]; simp [hn, hle]
      rw [State.queued, framePiece_over c p hn, List.append_nil, hw, hd]
    refine ⟨s.rsp, ?_⟩
    rw [hsame]
    refine .event nofun fun rest => ?_
    exact (hostAct_runs (s := { s with inbox := rest }) h.runs).trans
      (pullRound_sends_over (s := { s with inbox := rest }) { h with } hn)

/-- Rounds in a row, with what they leave in `RING` and no tick between them. -/
theorem State.Sends.leads_rounds {frees : List CountWord} (h : s.Sends c p par n)
    (hring : s.ring = (frame c p.bytes).take (8 * n))
    (hfrees : ∀ k f, frees[k]? = some f →
      f.toNat ≤ par.cap ∧ f.toNat ≤ par.ringDepth - min (8 * (n + offers (frees.take k))) 25) :
    ∃ rsp, Leads (frees.map .pull) s
      (s.queued (n + offers frees) ((frame c p.bytes).take (8 * (n + offers frees))) rsp) [] := by
  induction frees generalizing s n with
  | nil =>
    have hsame : s.queued n ((frame c p.bytes).take (8 * n)) s.rsp = s := by
      rw [State.queued, ← hring, ← h.w_eq, ← h.done_eq]
    refine ⟨s.rsp, ?_⟩
    show Leads [] s (s.queued n ((frame c p.bytes).take (8 * n)) s.rsp) []
    rw [hsame]
    exact .nil s
  | cons f frees ih =>
    obtain ⟨hcap, hfree⟩ := hfrees 0 f rfl
    have hlen : s.ring.length = min (8 * n) 25 := by
      rw [hring, List.length_take, Payload.bytes, frame_length]
    obtain ⟨rsp, hround⟩ := h.leads_round hcap (hlen ▸ hfree)
    rw [hring, take_append_framePiece] at hround
    obtain ⟨rsp', hrounds⟩ := ih (h.queued (offersAfter n f.toNat) _ rsp) rfl fun k f' hk => by
      have := hfrees (k + 1) f' hk
      rwa [List.take_succ_cons, offers_cons, ← Nat.add_assoc, ← offersAfter_eq_add] at this
    refine ⟨rsp', ?_⟩
    rw [offers_cons, ← Nat.add_assoc, ← offersAfter_eq_add]
    exact hround.append hrounds

end

/-- Settles O53: the start makes a transmission of no offers, and each round moves it on. -/
theorem setColorQueuesTheFrame : Obligations.SetColorQueuesTheFrame := by
  unfold Obligations.SetColorQueuesTheFrame
  intro s r g b frees rest hr ha hv hring hfrees hi
  obtain ⟨rsp, hrounds⟩ := (State.started_sends r g b hr).leads_rounds hring (frees := frees) fun k f hk => by
    rw [Nat.zero_add]
    exact hfrees k f hk
  rw [Nat.zero_add] at hrounds
  obtain ⟨hrun, -⟩ := ((leads_setColor hr ha hv).append hrounds).run hi
  rw [List.length_append, List.length_map, List.length_singleton, Nat.add_comm] at hrun
  refine ⟨_, hrun, rfl, (take_frame_min s.cfg (Payload.load r g b) (offers frees)).symm, rfl, rfl, fun hfour => ?_, rfl, rfl,
    rfl, hr, rfl⟩
  exact take_frame_of_four_le s.cfg (Payload.load r g b) hfour

/-- What the invariant says of a transmission in flight: how many offers it has had. -/
theorem State.Inv.sends {s : State} (h : s.Inv) (hr : s.hostRuns) (ha : s.active = true) :
    ∃ n ≤ 4, s.Sends s.cfg s.payload s.par n := by
  have hset := (h.active_boot ha).2 hr.1
  have hsends {n : Nat} (hw : s.w = min (8 * n) 25) (hd : s.done = decide (4 ≤ n)) :
      s.Sends s.cfg s.payload s.par n :=
    ⟨hr, ha, hset, h.cursor_loaded hset, rfl, rfl, rfl, hw, hd⟩
  obtain ⟨hw, hd⟩ | ⟨hw, hd⟩ := h.cursor_legal hset
  · simp only [List.mem_cons, List.not_mem_nil, or_false] at hw
    refine ⟨s.w / 8, by omega, hsends (by omega) ?_⟩
    rw [hd, eq_comm]
    exact decide_eq_false (by omega)
  · exact ⟨4, le_rfl, hsends hw hd⟩

/-- Settles O45: the round of the offer count that the invariant gives. -/
theorem roundAppendsAndThreads : Obligations.RoundAppendsAndThreads := by
  unfold Obligations.RoundAppendsAndThreads
  intro s f rest hinv hr ha hdone hi hfree hcap
  obtain ⟨n, -, hsends⟩ := hinv.sends hr ha
  have hn : n < 4 := by
    have hd := hsends.done_eq
    rw [hdone] at hd
    simpa using hd.symm
  have hw : s.w = 8 * n := by
    have := hsends.w_eq
    omega
  have hstep := step_pull hr hi
  rw [pullRound_sends (s := { s with inbox := rest }) { hsends with } hn hcap hfree] at hstep
  have hcount := framePiece_length s.cfg s.payload n f.toNat
  have hcursor := cursor_add_framePiece_length s.cfg s.payload hn f.toNat
  refine ⟨_, _, hstep, rfl, rfl, ?_, ?_, ?_, (step_inv hinv hstep).ring_bound⟩
  · show (framePiece s.cfg s.payload.bytes n f.toNat).length = _
    rw [hcount, hw]
    split_ifs <;> omega
  · rw [State.queued, ← hcursor, ← hw]
    rfl
  · show decide (4 ≤ offersAfter n f.toNat) = true ↔ min (8 * offersAfter n f.toNat) 25 = 25
    rw [decide_eq_true_iff]
    omega

/-! ### Whole transmissions -/

theorem disable_setInbox (s : State) (rest : List Event) :
    disable { s with inbox := rest } = { disable s with inbox := rest } := by
  obtain hp | ⟨x, e, hp⟩ | ⟨gapped, hp⟩ | ⟨left, hp⟩ := s.play.eq_cases <;> simp [disable, hp]

theorem failTransmission_setInbox (s : State) (rest : List Event) :
    failTransmission { s with inbox := rest } = { failTransmission s with inbox := rest } := by
  simp only [failTransmission, disable_setInbox]

theorem completeTransmission_setInbox (s : State) (rest : List Event) :
    completeTransmission { s with inbox := rest } = { completeTransmission s with inbox := rest } := by
  simp only [completeTransmission, disable_setInbox]

theorem frame_fits {c : Cfg} (hc : c.valid = true) (bytes : List Byte) : ∀ x ∈ frame c bytes, x.fits = true := by
  intro x hx
  obtain hx | hx := List.mem_append.1 hx
  · obtain ⟨byte, -, hbyte⟩ := List.mem_flatMap.1 hx
    exact byteSymbols_fit hc byte x hbyte
  · rw [List.mem_singleton.1 hx]
    exact valid_rom_fits hc .reset

section
variable {s t : State} {c : Cfg} {p : Payload} {par : Params} {n : Nat} {bits : List Bool}

/-- A look at the drain, by what HOST makes of it. -/
theorem State.Sends.leads_drain (h : s.Sends c p par n) (d : Bool)
    (hd : ∀ rest, waitForDrain d { s with inbox := rest } = { t with inbox := rest }) : Leads [.drain d] s t [] := by
  refine .event nofun fun rest => ?_
  exact (hostAct_runs (s := { s with inbox := rest }) h.runs).trans (congrArg _ (hd rest))

/-- After the loop a look at a drained line ends the transmission with `OK`, if the wait is unbounded. -/
theorem State.Sends.leads_ok (h : s.Sends c p par n) (hn : 4 ≤ n) (htime : par.drainTimeout = none)
    (hdrained : drained s = true) : Leads [.drain false] s (completeTransmission s) [] := by
  have hdone : s.done = true := h.done_eq.trans (decide_eq_true hn)
  have hpar : s.par.drainTimeout = none := by rw [h.par_eq, htime]
  refine h.leads_drain false fun rest => ?_
  have hwait : timedOut { s with inbox := rest } = false := timedOut_unbounded hpar
  have hdrained' : drained { s with inbox := rest } = true := hdrained
  rw [waitForDrain_after_loop (s := { s with inbox := rest }) h.active hdone, hwait, hdrained',
    ← completeTransmission_setInbox]
  rfl

/-- A failing drain ends the transmission with `FAIL`, in the loop too. -/
theorem State.Sends.leads_fail (h : s.Sends c p par n) : Leads [.drain true] s (failTransmission s) [] := by
  refine h.leads_drain true fun rest => ?_
  rw [waitForDrain_fails (s := { s with inbox := rest }) h.active, failTransmission_setInbox]

/-- HOST's run is as before when a transmission has completed, and its cursor is at the end. -/
theorem State.Sends.completed (h : s.Sends c p par n) (hn : 4 ≤ n) :
    (completeTransmission s).ret = some .ok ∧ (completeTransmission s).active = false ∧
      (completeTransmission s).w = 25 ∧ (completeTransmission s).done = true ∧ (completeTransmission s).safe := by
  obtain ⟨hs, hh, hb⟩ := h.runs
  have hw : s.w = 25 := by rw [h.w_eq]; omega
  have hdone : s.done = true := h.done_eq.trans (decide_eq_true hn)
  rw [completeTransmission_frame]
  exact ⟨rfl, rfl, hw, hdone, hs, hh, by show s.boot ≠ .failed; rw [hb]; nofun⟩

end

section
variable {s t : State} {c : Cfg} {p : Payload} {par : Params} {n : Nat} {bits : List Bool}

theorem ring_eq_nil_of_drained (h : drained s = true) : s.ring = [] := by
  simp only [drained, Bool.and_eq_true, List.isEmpty_iff] at h
  exact h.1

/-- A steady PG shows in as many ticks all that it owes, and has then drained the line. -/
theorem State.Steady.leads_drained (h : s.Steady) :
    Leads (List.replicate s.owed.length .tick) s (ticksFrom s.owed.length s) s.owed ∧
      Machine.drained (ticksFrom s.owed.length s) = true := by
  obtain ⟨hsteady, hline, howed⟩ := h.ticks le_rfl
  have hticks := Leads.ticks s.owed.length s
  rw [hline, List.take_length] at hticks
  exact ⟨hticks, hsteady.drained (howed.trans List.drop_length)⟩

/-- With no tick between, four rounds with 8 free slots put the whole frame into 32 slots. -/
theorem leads_whole_frame {r g b : Byte} (hr : s.hostRuns) (ha : s.active = false) (hv : s.cfg.valid = true)
    (hring : s.ring = []) (hcap : 8 ≤ s.par.cap) (hdepth : 32 ≤ s.par.ringDepth) :
    ∃ rsp, Leads [.setColor r g b false, .pull 8, .pull 8, .pull 8, .pull 8] s
      ((s.started r g b).queued 4 (frame s.cfg [g, r, b]) rsp) [] := by
  obtain ⟨rsp, hrounds⟩ := (State.started_sends r g b hr).leads_rounds (frees := List.replicate 4 8) hring fun k f hk => by
    obtain ⟨hlt, rfl⟩ : k < 4 ∧ 8 = f := by
      rw [List.getElem?_replicate] at hk
      split at hk
      · next hlt => exact ⟨hlt, Option.some_injective _ hk⟩
      · cases hk
    have hoffers : offers ((List.replicate 4 8).take k) = k := by
      interval_cases k <;> rfl
    rw [hoffers]
    exact ⟨hcap, show 8 ≤ _ by omega⟩
  exact ⟨rsp, (leads_setColor hr ha hv).append hrounds⟩

end

/-- Settles O55: the start and four rounds queue the frame, as many ticks as it lasts show it, and the look at the drained line
ends the transmission. -/
theorem setColorRunsToOk : Obligations.SetColorRunsToOk := by
  unfold Obligations.SetColorRunsToOk
  intro s r g b rest hinv hr ha hv hdepth htime hring hplay n hi
  obtain ⟨rsp, hqueue⟩ := leads_whole_frame (r := r) (g := g) (b := b) hr ha hv hring hinv.cap_min hdepth
  obtain ⟨u, hu⟩ : ∃ u, u = (s.started r g b).queued 4 (frame s.cfg [g, r, b]) rsp := ⟨_, rfl⟩
  rw [← hu] at hqueue
  have hsends : u.Sends s.cfg (Payload.load r g b) s.par 4 := hu ▸ (State.started_sends r g b hr).queued 4 _ rsp
  have huplay : u.play = .idle := by rw [hu]; exact hplay
  have huring : u.ring = frame s.cfg [g, r, b] := by rw [hu]; rfl
  have hsteady : u.Steady := steady_of_idle (by rw [hu]; rfl) huplay fun x hx =>
    fits_total_pos (frame_fits hv [g, r, b] x (huring ▸ hx))
  have howed : u.owed = levels (wave (frame s.cfg [g, r, b])) := by rw [owed_of_idle huplay, huring]
  have hn : u.owed.length = n := by rw [howed, levels_wave_length, sum_frame_total]
  obtain ⟨hplayed, hdrained⟩ := hsteady.leads_drained
  rw [hn] at hplayed hdrained
  have hok := (hsends.ticks n).leads_ok le_rfl htime hdrained
  obtain ⟨hrun, hshown⟩ := ((hqueue.append hplayed).append hok).run (rest := rest) (by simp [hi])
  have hlength : ([Event.setColor r g b false, .pull 8, .pull 8, .pull 8, .pull 8] ++ List.replicate n Event.tick ++
      [Event.drain false]).length = n + 6 := by simp
  rw [hlength] at hrun hshown
  rw [List.nil_append, List.append_nil, howed] at hshown
  obtain ⟨hret, hact, hw, hdone, hsafe⟩ := (hsends.ticks n).completed le_rfl
  exact ⟨hshown, _, hrun, hret, hact, disable_en _, disable_line _,
    (disable_ring _).trans (ring_eq_nil_of_drained hdrained), hw, hdone, hsafe, rfl⟩

/-! ### Every transmission can end (R90, R95) -/

section
variable {s t : State} {c : Cfg} {p : Payload} {par : Params} {n : Nat} {bits : List Bool}

theorem keepsGoing_ticks (k : Nat) : ∀ e ∈ List.replicate k Event.tick, e.keepsGoing := by
  intro e he
  rw [(List.mem_replicate.1 he).2]
  exact .inr (.inl rfl)

/-- Ticks alone drain the line of a transmission, and leave HOST where it is. -/
theorem State.Sends.leads_drained (h : s.Sends c p par n) (hen : s.en = true) :
    ∃ k u bits, Leads (List.replicate k .tick) s u bits ∧ u.Sends c p par n ∧ u.en = true ∧ drained u = true := by
  obtain ⟨k, hk⟩ := enabledRingDrains s hen
  exact ⟨k, _, _, Leads.ticks k s, h.ticks k, (ticksFrom_en k s).trans hen, hk⟩

/-- With `m` offers to go, a drained line before each of them lets its round go through. -/
theorem State.Sends.can_end (hcap : 8 ≤ par.cap) (hdepth : 8 ≤ par.ringDepth) (htime : par.drainTimeout = none) (m : Nat)
    (h : s.Sends c p par n) (hen : s.en = true) (hm : n + m = 4) :
    ∃ es t bits, (∀ e ∈ es, e.keepsGoing) ∧ Leads es s t bits ∧ t.ret = some .ok ∧ t.active = false ∧ t.w = 25 ∧
      t.safe := by
  induction m generalizing s n with
  | zero =>
    obtain rfl : n = 4 := hm
    obtain ⟨k, u, bits, hticks, hsends, -, hdrained⟩ := h.leads_drained hen
    obtain ⟨hret, hact, hw, -, hsafe⟩ := hsends.completed le_rfl
    refine ⟨_, _, _, ?_, hticks.append (hsends.leads_ok le_rfl htime hdrained), hret, hact, hw, hsafe⟩
    rw [List.forall_mem_append, List.forall_mem_singleton]
    exact ⟨keepsGoing_ticks k, .inr (.inr rfl)⟩
  | succ m ih =>
    obtain ⟨k, u, bits, hticks, hsends, huen, hdrained⟩ := h.leads_drained hen
    obtain ⟨rsp, hround⟩ := hsends.leads_round (f := 8) hcap (by rw [ring_eq_nil_of_drained hdrained]; exact hdepth)
    have hoffer : offersAfter n (8 : CountWord).toNat = n + 1 := rfl
    rw [hoffer] at hround
    obtain ⟨es, t, bits', hes, hleads, hend⟩ := ih (hsends.queued (n + 1) _ rsp) huen (by omega)
    refine ⟨_, t, _, ?_, (hticks.append hround).append hleads, hend⟩
    rw [List.forall_mem_append, List.forall_mem_append, List.forall_mem_singleton]
    exact ⟨⟨keepsGoing_ticks k, .inl ⟨8, rfl⟩⟩, hes⟩

end

/-- Settles O56: the invariant counts the offers made, and the rest of them go through one by one. -/
theorem everyTransmissionCanEnd : Obligations.EveryTransmissionCanEnd := by
  unfold Obligations.EveryTransmissionCanEnd
  intro s hinv hr ha hdepth htime
  obtain ⟨n, hn, hsends⟩ := hinv.sends hr ha
  obtain ⟨es, t, bits, hes, hleads, hret, hact, hw, hsafe⟩ :=
    hsends.can_end hinv.cap_min hdepth htime (4 - n) (hinv.channel.trans ha) (by omega)
  have hrun := (hleads []).1
  rw [List.append_nil] at hrun
  exact ⟨es, _, hes, hrun, hret, hact, hw, hsafe⟩

/-! ### A failure after any beginning of the frame (R96) -/

/-- In a transmission of `n` offers PG plays without a gap: with the levels `bits` that the line has shown, what it owes makes up
the waveform of all that has been queued. -/
structure State.Shows (s : State) (c : Cfg) (p : Payload) (par : Params) (n : Nat) (bits : List Bool) : Prop where
  sends : s.Sends c p par n
  inv : s.Inv
  steady : s.Steady
  line_eq : bits ++ s.owed = levels (wave ((frame c p.bytes).take (8 * n)))

section
variable {s : State} {c : Cfg} {p : Payload} {par : Params} {n : Nat} {bits : List Bool}

theorem State.Inv.ring_pos (h : s.Inv) : ∀ x ∈ s.ring, 0 < x.total := fun x hx => fits_total_pos (h.ring_fits x hx)

/-- Ticks move levels from what PG owes to what the line has shown. -/
theorem State.Shows.ticks (h : s.Shows c p par n bits) {k : Nat} (hk : k ≤ s.owed.length) :
    ∃ u, Leads (List.replicate k .tick) s u (s.owed.take k) ∧ u.owed = s.owed.drop k ∧
      u.Shows c p par n (bits ++ s.owed.take k) := by
  obtain ⟨hsteady, hline, howed⟩ := h.steady.ticks hk
  have hticks := Leads.ticks k s
  rw [hline] at hticks
  refine ⟨_, hticks, howed, h.sends.ticks k, hticks.inv h.inv, hsteady, ?_⟩
  rw [howed, List.append_assoc, List.take_append_drop, h.line_eq]

/-- A round on an empty `RING` queues the next piece, as long as PG has not starved. -/
theorem State.Shows.round (h : s.Shows c p par n bits) (hring : s.ring = []) (hplay : ∀ g, s.play ≠ .starved g)
    (hcap : 8 ≤ par.cap) (hdepth : 8 ≤ par.ringDepth) :
    ∃ u, Leads [.pull 8] s u [] ∧ u.Shows c p par (n + 1) bits := by
  obtain ⟨rsp, hround⟩ := h.sends.leads_round (f := 8) hcap (by rw [hring]; exact hdepth)
  have hoffer : offersAfter n (8 : CountWord).toNat = n + 1 := rfl
  have hpiece := take_append_framePiece c p.bytes n (8 : CountWord).toNat
  rw [hoffer, hring, List.nil_append] at hround
  rw [hoffer] at hpiece
  obtain ⟨piece, hp⟩ : ∃ piece, piece = framePiece c p.bytes n (8 : CountWord).toNat := ⟨_, rfl⟩
  rw [← hp] at hround hpiece
  have hinv := hround.inv h.inv
  have howed : s.owed = s.play.owed := by rw [State.owed, hring, levels_wave_nil, List.append_nil]
  refine ⟨_, hround, h.sends.queued (n + 1) piece rsp, hinv, ⟨h.steady.en, hinv.ring_pos, ?_⟩, ?_⟩
  · show s.play.steady piece
    have hsteady := h.steady.play_steady
    cases hp : s.play with
    | idle => trivial
    | playing x e =>
      rw [hp] at hsteady
      exact hsteady
    | starved g => exact absurd hp (hplay g)
    | gap left =>
      rw [hp] at hsteady
      exact hsteady.elim
  · show bits ++ (s.play.owed ++ levels (wave piece)) = _
    rw [← hpiece, levels_wave_append, ← List.append_assoc, ← howed, h.line_eq]

/-- While PG owes one level, nothing is left in `RING`, for a legal symbol lasts two ticks or more; but the last symbol is still
in play. -/
theorem State.Shows.last_level (h : s.Shows c p par n bits) (hlen : s.owed.length = 1) :
    s.ring = [] ∧ ∀ g, s.play ≠ .starved g := by
  have hring : s.ring = [] := by
    cases hr : s.ring with
    | nil => rfl
    | cons x rest =>
      obtain ⟨⟨h0, -⟩, h1, -⟩ := (fits_iff x).1 (h.inv.ring_fits x (hr ▸ List.mem_cons_self))
      have htotal : x.total = x.dur0 + x.dur1 := rfl
      rw [State.owed, hr, levels_wave_cons, List.length_append, List.length_append, List.length_map, List.length_range,
        htotal] at hlen
      omega
  refine ⟨hring, fun g hg => ?_⟩
  rw [State.owed, hring, hg] at hlen
  cases hlen

/-- A longer beginning of the frame goes on from a shorter one. -/
theorem levels_take_append (l : List Symbol) {i j : Nat} (h : i ≤ j) :
    levels (wave (l.take j)) = levels (wave (l.take i)) ++ levels (wave ((l.drop i).take (j - i))) := by
  rw [← levels_wave_append, ← List.take_add, Nat.add_sub_cancel' h]

/-- The waveform of the frame goes on with each of its four pieces. -/
theorem levels_frame_lt (hc : c.valid = true) (p : Payload) (hn : n < 4) :
    (levels (wave ((frame c p.bytes).take (8 * n)))).length <
      (levels (wave ((frame c p.bytes).take (8 * (n + 1))))).length := by
  rw [levels_take_append _ (show 8 * n ≤ 8 * (n + 1) by omega), List.length_append]
  refine Nat.lt_add_of_pos_right (List.length_pos_of_ne_nil fun hnil => ?_)
  have hpos : ∀ x ∈ ((frame c p.bytes).drop (8 * n)).take (8 * (n + 1) - 8 * n), 0 < x.total := fun x hx =>
    fits_total_pos (frame_fits hc p.bytes x (List.mem_of_mem_drop (List.mem_of_mem_take hx)))
  have hlen := congrArg List.length (levels_wave_eq_nil hpos hnil)
  rw [List.length_take, List.length_drop, Payload.bytes, frame_length, List.length_nil] at hlen
  omega

/-- Each of the four pieces can be queued before the one before it has been played out. -/
theorem State.Shows.reaches (h : s.Shows c p par 0 []) (hc : c.valid = true) (hring : s.ring = [])
    (hplay : ∀ g, s.play ≠ .starved g) (hcap : 8 ≤ par.cap) (hdepth : 8 ≤ par.ringDepth) (hn : n < 4) :
    ∃ es u bits, (∀ e ∈ es, e.keepsGoing) ∧ Leads es s u bits ∧ u.Shows c p par (n + 1) bits ∧
      bits.length ≤ (levels (wave ((frame c p.bytes).take (8 * n)))).length := by
  induction n with
  | zero =>
    obtain ⟨u, hround, hshows⟩ := h.round hring hplay hcap hdepth
    refine ⟨_, u, [], ?_, hround, hshows, Nat.zero_le _⟩
    rw [List.forall_mem_singleton]
    exact .inl ⟨8, rfl⟩
  | succ n ih =>
    obtain ⟨es, u, bits, hes, hleads, hshows, hbits⟩ := ih (by omega)
    have hlt := levels_frame_lt hc p (show n < 4 by omega)
    have htotal := congrArg List.length hshows.line_eq
    rw [List.length_append] at htotal
    obtain ⟨v, hticks, howed, hshows⟩ := hshows.ticks (k := u.owed.length - 1) (by omega)
    have hlast : v.owed.length = 1 := by
      rw [howed, List.length_drop]
      omega
    obtain ⟨hvring, hvplay⟩ := hshows.last_level hlast
    obtain ⟨x, hround, hshows⟩ := hshows.round hvring hvplay hcap hdepth
    refine ⟨_, x, _, ?_, (hleads.append hticks).append hround, ?_, ?_⟩
    · rw [List.forall_mem_append, List.forall_mem_append, List.forall_mem_singleton]
      exact ⟨⟨hes, keepsGoing_ticks _⟩, .inl ⟨8, rfl⟩⟩
    · rwa [List.append_nil]
    · rw [List.append_nil, List.length_append, List.length_take]
      omega

/-- The line can show any beginning of the frame and no more. -/
theorem State.Shows.shows_beginning (h : s.Shows c p par 0 []) (hc : c.valid = true) (hring : s.ring = [])
    (hplay : ∀ g, s.play ≠ .starved g) (hcap : 8 ≤ par.cap) (hdepth : 8 ≤ par.ringDepth) {k : Nat} (hk : k ≤ 25) :
    ∃ es u m, (∀ e ∈ es, e.keepsGoing) ∧ Leads es s u (levels (wave ((frame c p.bytes).take k))) ∧ u.Sends c p par m := by
  obtain ⟨es, u, bits, hes, hleads, hshows, hbits⟩ :=
    h.reaches hc hring hplay hcap hdepth (n := (k - 1) / 8) (by omega)
  have hlo := levels_take_append (frame c p.bytes) (show 8 * ((k - 1) / 8) ≤ k by omega)
  have hhi := levels_take_append (frame c p.bytes) (show k ≤ 8 * ((k - 1) / 8 + 1) by omega)
  obtain ⟨shown, hshown⟩ : ∃ shown, shown = levels (wave ((frame c p.bytes).take k)) := ⟨_, rfl⟩
  rw [← hshown] at hlo hhi ⊢
  have hge : bits.length ≤ shown.length := by
    rw [hlo, List.length_append]
    omega
  have hall := hshows.line_eq.trans hhi
  have hle := congrArg List.length hall
  rw [List.length_append, List.length_append] at hle
  obtain ⟨v, hticks, -, hshows⟩ := hshows.ticks (k := shown.length - bits.length) (by omega)
  have hline : bits ++ u.owed.take (shown.length - bits.length) = shown := by
    have htake := congrArg (List.take shown.length) hall
    rwa [List.take_left, List.take_append, List.take_of_length_le hge] at htake
  have hboth := hleads.append hticks
  rw [hline] at hboth
  refine ⟨_, v, _, ?_, hboth, hshows.sends⟩
  rw [List.forall_mem_append]
  exact ⟨hes, keepsGoing_ticks _⟩

end

/-- Settles O57: the line shows the beginning asked for, and then the drain fails. -/
theorem failureMayLeaveAnyPrefix : Obligations.FailureMayLeaveAnyPrefix := by
  unfold Obligations.FailureMayLeaveAnyPrefix
  intro s r g b k hinv hr ha hv hdepth hring hplay hk
  have hstart := leads_setColor (r := r) (g := g) (b := b) hr ha hv
  have hstarted : (s.started r g b).Shows s.cfg (Payload.load r g b) s.par 0 [] := by
    have hi := hstart.inv hinv
    refine ⟨State.started_sends r g b hr, hi, steady_of_idle rfl hplay hi.ring_pos, ?_⟩
    rw [List.nil_append, owed_of_idle (s := s.started r g b) hplay]
    exact congrArg (fun l => levels (wave l)) hring
  obtain ⟨es, u, m, hes, hleads, hsends⟩ := hstarted.shows_beginning hv hring
    (fun q hq => by cases hplay.symm.trans hq) hinv.cap_min hdepth hk
  have hall := hstart.append (hleads.append hsends.leads_fail)
  rw [List.nil_append, List.append_nil] at hall
  obtain ⟨hrun, hline⟩ := hall []
  rw [List.append_nil, List.length_append, List.length_append, List.length_singleton, List.length_singleton,
    Nat.add_comm 1] at hrun hline
  refine ⟨es, _, hes, hrun, hline, rfl, rfl, disable_en u, disable_line u, ?_⟩
  rw [failTransmission_frame]
  exact hsends.runs

end Sys2Proof.Machine
